-- ==== Sys2Proof/Word.lean ====
section
/-! DEFINITION. The plain types of the block: bytes and bit sequences.

Bit vectors stand for registers, operands and bytes; a stream is a finite sequence of bits (00_scope.md R10). -/

namespace Sys2Proof

/-- One byte of a channel or of a container (20_memory.md R60). -/
abbrev Byte := BitVec 8

/-- A bit sequence, first bit first (00_scope.md R10); a bit is a Boolean (R12). -/
abbrev Bits := List Bool

end Sys2Proof
end

