-- ==== Sys2Proof/Syntax.lean ====
section
/-! DEFINITION. The instructions: one constructor per row of spec/opcode_table.json.

The first seven are the host commands (30_encoding.md R81, R82), with the operand bits each command reads. The last
seven are the codeword classes of the VLC (R85, R91), with the fields each class carries. A codeword class is no
command: the host hands the block one codeword through VDEC (log 3). -/

namespace Sys2Proof

inductive Instr where
  /-- NEW: `ARG_A[31:0]`, the capacity hint (R160, R161). -/
  | new (hint : BitVec 32)
  /-- APPEND: `ARG_A`; the command reads the low W bits of it (R82, R163). -/
  | append (argA : BitVec 64)
  /-- FINALIZE (R170). -/
  | finalize
  /-- SERIALIZE (R175). -/
  | serialize
  /-- DESERIALIZE (R190). -/
  | deserialize
  /-- VENC: `ARG_A[15:0]`, read as two's complement (R82, R140). -/
  | venc (value : BitVec 16)
  /-- VDEC: `ARG_A[15:0]`, the window, and `ARG_B[4:0]`, the number of valid bits (R82, R145). -/
  | vdec (window : BitVec 16) (avail : BitVec 5)
  /-- Codeword class ZERO, `00` (R85). -/
  | zero
  /-- Codeword class PLUS1, `01` (R85). -/
  | plus1
  /-- Codeword class MINUS1, `10` (R85). -/
  | minus1
  /-- Codeword class BAND4, `110`, sign bit, 4-bit offset (R85, R87). -/
  | band4 (neg : Bool) (offset : BitVec 4)
  /-- Codeword class BAND7, `1110`, sign bit, 7-bit offset (R85, R87). -/
  | band7 (neg : Bool) (offset : BitVec 7)
  /-- Codeword class BAND10, `11110`, sign bit, 10-bit offset (R85, R87). -/
  | band10 (neg : Bool) (offset : BitVec 10)
  /-- The reserved class, `11111` (R85, R90). -/
  | reserved
deriving DecidableEq, Repr

/-- Whether an instruction is one of the seven codeword classes (format VLC of the table) and not a command. -/
def Instr.isCodeword : Instr → Bool
  | .new _ => false
  | .append _ => false
  | .finalize => false
  | .serialize => false
  | .deserialize => false
  | .venc _ => false
  | .vdec _ _ => false
  | .zero => true
  | .plus1 => true
  | .minus1 => true
  | .band4 _ _ => true
  | .band7 _ _ => true
  | .band10 _ _ => true
  | .reserved => true

end Sys2Proof
end

