-- ==== Sys2Proof/WellFormed.lean ====
section
/-! DEFINITION. Which instructions are well formed.

The operand types bound every operand but one: AVAIL of VDEC has five bits and must not exceed 16 (30_encoding.md
R82, R84). -/

namespace Sys2Proof

/-- R84: VDEC's AVAIL is at most 16. Every other term is well formed. -/
def Instr.wellFormed : Instr → Bool
  | .new _ => true
  | .append _ => true
  | .finalize => true
  | .serialize => true
  | .deserialize => true
  | .venc _ => true
  | .vdec _ avail => decide (avail.toNat ≤ 16)
  | .zero => true
  | .plus1 => true
  | .minus1 => true
  | .band4 _ _ => true
  | .band7 _ _ => true
  | .band10 _ _ => true
  | .reserved => true

end Sys2Proof
end

