-- ==== Sys2Proof/Decode.lean ====
section
/-! DEFINITION. The two encodings of 30_encoding.md, each with its decoder and its encoder.

A command is the triple (CMD, ARG_A, ARG_B), all of one fixed length (R80). A codeword stands in a 16-bit window,
first bit at window bit 15 (R91). Decoding is total and names why it rejects; every rejection is an ILLEGAL_COMMAND
of the block (60_exceptions.md R211). -/

namespace Sys2Proof

/-- A command as the host issues it (30_encoding.md R80). -/
structure Command where
  cmd  : BitVec 32
  argA : BitVec 64
  argB : BitVec 8
deriving DecidableEq, Repr

/-- The words of an instruction: a command triple, or a codeword in a window. -/
inductive Code where
  | command (c : Command)
  | window (w : BitVec 16)
deriving DecidableEq, Repr

/-- Why a command word is illegal (30_encoding.md R84). -/
inductive DecodeError where
  /-- `CMD[31:4] != 0`. -/
  | reservedBitsSet
  /-- `CMD[3:0]` is 0x0 or in 0x8 to 0xF. -/
  | reservedOp
  /-- VDEC with `ARG_B[7:5] != 0`. -/
  | reservedArgBitsSet
  /-- VDEC with `ARG_B[4:0] > 16`. -/
  | availTooLarge
deriving DecidableEq, Repr

/-- `CMD.OP`, bits `[3:0]` (10_state.md R28). -/
def Command.op (c : Command) : BitVec 4 := c.cmd.extractLsb' 0 4

/-- `CMD.RSVD`, bits `[31:4]` (10_state.md R28). -/
def Command.rsvd (c : Command) : BitVec 28 := c.cmd.extractLsb' 4 28

/-- `ARG_B.AVAIL`, bits `[4:0]` (10_state.md R28). -/
def Command.avail (c : Command) : BitVec 5 := c.argB.extractLsb' 0 5

/-- `ARG_B.RSVD`, bits `[7:5]` (10_state.md R28). -/
def Command.argRsvd (c : Command) : BitVec 3 := c.argB.extractLsb' 5 3

/-- VDEC's operand fields and their check (30_encoding.md R82, R84). -/
def decodeVdec (c : Command) : Except DecodeError Instr :=
  if c.argRsvd ≠ 0 then .error .reservedArgBitsSet
  else if 16 < c.avail.toNat then .error .availTooLarge
  else .ok (.vdec (c.argA.extractLsb' 0 16) c.avail)

/-- The command codes of R81 with the operand layout of R82. -/
def decodeCommand (c : Command) : Except DecodeError Instr :=
  if c.rsvd ≠ 0 then .error .reservedBitsSet
  else match c.op.toNat with
    | 1 => .ok (.new (c.argA.extractLsb' 0 32))
    | 2 => .ok (.append c.argA)
    | 3 => .ok .finalize
    | 4 => .ok .serialize
    | 5 => .ok .deserialize
    | 6 => .ok (.venc (c.argA.extractLsb' 0 16))
    | 7 => decodeVdec c
    | _ => .error .reservedOp

/-- The codeword class of a window and its fields (R91). The classes are tried by ascending prefix length (R85). -/
def decodeWindow (w : BitVec 16) : Instr :=
  if w.extractLsb' 14 2 = 0b00#2 then .zero
  else if w.extractLsb' 14 2 = 0b01#2 then .plus1
  else if w.extractLsb' 14 2 = 0b10#2 then .minus1
  else if w.extractLsb' 13 3 = 0b110#3 then .band4 (w.getLsbD 12) (w.extractLsb' 8 4)
  else if w.extractLsb' 12 4 = 0b1110#4 then .band7 (w.getLsbD 11) (w.extractLsb' 4 7)
  else if w.extractLsb' 11 5 = 0b11110#5 then .band10 (w.getLsbD 10) (w.extractLsb' 0 10)
  else .reserved

/-- Decoding, total on any words of either encoding. -/
def decode : Code → Except DecodeError Instr
  | .command c => decodeCommand c
  | .window w => .ok (decodeWindow w)

/-- One bit as a bit vector. -/
def bit1 (b : Bool) : BitVec 1 := BitVec.ofBool b

/-- The encoding tables R81, R82, R87 and R91 read the other way. Every operand bit a command does not use is 0 (R93),
and every window bit below a codeword is 0 (R83). -/
def encode : Instr → Code
  | .new hint => .command ⟨1#32, hint.setWidth 64, 0#8⟩
  | .append argA => .command ⟨2#32, argA, 0#8⟩
  | .finalize => .command ⟨3#32, 0#64, 0#8⟩
  | .serialize => .command ⟨4#32, 0#64, 0#8⟩
  | .deserialize => .command ⟨5#32, 0#64, 0#8⟩
  | .venc v => .command ⟨6#32, v.setWidth 64, 0#8⟩
  | .vdec w a => .command ⟨7#32, w.setWidth 64, a.setWidth 8⟩
  | .zero => .window (0b00#2 ++ 0#14)
  | .plus1 => .window (0b01#2 ++ 0#14)
  | .minus1 => .window (0b10#2 ++ 0#14)
  | .band4 s off => .window (0b110#3 ++ bit1 s ++ off ++ 0#8)
  | .band7 s off => .window (0b1110#4 ++ bit1 s ++ off ++ 0#4)
  | .band10 s off => .window (0b11110#5 ++ bit1 s ++ off)
  | .reserved => .window (0b11111#5 ++ 0#11)

/-- The VLC rows of spec/opcode_table.json as (match, mask) pairs over a window (30_encoding.md R91). -/
def windowRows : List (BitVec 16 × BitVec 16) :=
  [(0x0000, 0xC000), (0x4000, 0xC000), (0x8000, 0xC000), (0xC000, 0xE000), (0xE000, 0xF000), (0xF000, 0xF800),
   (0xF800, 0xF800)]

/-- The row of `windowRows` that belongs to a codeword class; none for a command. -/
def Instr.windowRow : Instr → Option (BitVec 16 × BitVec 16)
  | .new _ => none
  | .append _ => none
  | .finalize => none
  | .serialize => none
  | .deserialize => none
  | .venc _ => none
  | .vdec _ _ => none
  | .zero => some (0x0000, 0xC000)
  | .plus1 => some (0x4000, 0xC000)
  | .minus1 => some (0x8000, 0xC000)
  | .band4 _ _ => some (0xC000, 0xE000)
  | .band7 _ _ => some (0xE000, 0xF000)
  | .band10 _ _ => some (0xF000, 0xF800)
  | .reserved => some (0xF800, 0xF800)

/-- The words that spec/opcode_table.json numbers: a row of at most 16 bits is a window; a wider row is a command, CMD
in bits 31..0, ARG_A in bits 95..32 and ARG_B in bits 103..96 (DESIGN CHOICE, log 13: the table numbers the CMD word
alone, and R80 gives the three words in this order). -/
def Code.ofTable (nbits w : Nat) : Code :=
  if nbits ≤ 16 then .window (BitVec.ofNat 16 w)
  else .command ⟨BitVec.ofNat 32 w, BitVec.ofNat 64 (w >>> 32), BitVec.ofNat 8 (w >>> 96)⟩

/-- The instruction the decoder reads from an instruction numbered as the opcode table numbers it. -/
def decodeTableWord (nbits w : Nat) : Option Instr := (decode (Code.ofTable nbits w)).toOption

end Sys2Proof
end

