-- ==== Sys2Proof/Machine/Bits.lean ====
section
/-! DEFINITION. Bit sequences, padding and packing (00_scope.md R8, R10, R11), MSB first everywhere (20_memory.md R52). -/

namespace Sys2Proof.Machine

/-- `bits_N(u)`: the low `n` bits of `u`, most significant first (R10). -/
def bitsN : Nat → Nat → Bits
  | 0, _ => []
  | n + 1, u => u.testBit n :: bitsN n u

/-- `ceil(n/8)` (R8). -/
def ceilDiv8 (n : Nat) : Nat := (n + 7) / 8

/-- The number of zero bits `pad8` adds to a sequence of `n` bits (R11). -/
def padCount (n : Nat) : Nat := (8 - n % 8) % 8

/-- `pad8(s)`: zero bits up to the next multiple of 8 (R11). -/
def pad8 (s : Bits) : Bits := s ++ List.replicate (padCount s.length) false

/-- One byte from its eight bits, the first at byte bit 7 (R11). -/
def byteOfBits (b7 b6 b5 b4 b3 b2 b1 b0 : Bool) : Byte :=
  BitVec.ofNat 8 (b7.toNat * 128 + b6.toNat * 64 + b5.toNat * 32 + b4.toNat * 16 + b3.toNat * 8 + b2.toNat * 4
    + b1.toNat * 2 + b0.toNat)

/-- `pack(s)` (R11). The spec defines it where the length is a multiple of 8, as every stream is that SERIALIZE reads
(R26); a shorter last group, which no reachable state has, gives no byte (DESIGN CHOICE, log 11). -/
def pack : Bits → List Byte
  | b7 :: b6 :: b5 :: b4 :: b3 :: b2 :: b1 :: b0 :: rest => byteOfBits b7 b6 b5 b4 b3 b2 b1 b0 :: pack rest
  | _ => []

/-- The bits of one byte, bit 7 first (R11). -/
def unpackByte (b : Byte) : Bits := bitsN 8 b.toNat

/-- `unpack(bytes)`, the inverse of `pack` (R11). -/
def unpack (bs : List Byte) : Bits := bs.flatMap unpackByte

/-- The four bytes of a 32-bit count, most significant first (20_memory.md R54). -/
def be32 (n : BitVec 32) : List Byte :=
  [n.extractLsb' 24 8, n.extractLsb' 16 8, n.extractLsb' 8 8, n.extractLsb' 0 8]

/-- The count that four big-endian bytes hold (43_chunk_decoder.md R192). -/
def countOfBytes (c0 c1 c2 c3 : Byte) : Nat :=
  c0.toNat * 2 ^ 24 + c1.toNat * 2 ^ 16 + c2.toNat * 2 ^ 8 + c3.toNat

/-- `sum over k of c{k} * 2^(15-k)`, from position `k` on (41_varint_codec.md R140). -/
def windowSum : Bits → Nat → Nat
  | [], _ => 0
  | b :: c, k => b.toNat * 2 ^ (15 - k) + windowSum c (k + 1)

/-- The 16-bit window of a codeword: left-aligned, zero below it (30_encoding.md R83). -/
def windowOf (c : Bits) : BitVec 16 := BitVec.ofNat 16 (windowSum c 0)

end Sys2Proof.Machine
end

