-- ==== Sys2Proof/Config.lean ====
section
/-! DEFINITION. The instance parameters (00_scope.md section 4).

An instance is built for one SHAPE and one MAX_SAMPLES, and no command changes either (R5, R7). The model carries
them in State as a constant field, so that one model is every build of the block (DESIGN CHOICE, log 1). The spec
leaves no value free, so there is no opaque constant here. -/

namespace Sys2Proof

/-- The two float shapes an instance can be built for (00_scope.md R5). -/
inductive Shape where
  | f32
  | f64
deriving DecidableEq, Repr

/-- `E` = EXP_BITS (00_scope.md R5). -/
def Shape.expBits : Shape → Nat
  | .f32 => 8
  | .f64 => 11

/-- `M` = MANTISSA_BITS (00_scope.md R5). -/
def Shape.mantBits : Shape → Nat
  | .f32 => 23
  | .f64 => 52

/-- `W`, the width of a sample in bits: `1 + E + M` (00_scope.md R5). -/
def Shape.width (sh : Shape) : Nat := 1 + sh.expBits + sh.mantBits

/-- The parameters of one instance. -/
structure Config where
  /-- SHAPE (00_scope.md R5). -/
  shape : Shape
  /-- MAX_SAMPLES (00_scope.md R7): 32 bits, since the spec bounds it by `2^32 - 1`. -/
  maxSamples : BitVec 32
deriving DecidableEq, Repr

/-- The bounds of R7: `1 <= MAX_SAMPLES <= 2^32 - 1`; the width gives the upper one. -/
def Config.wf (c : Config) : Bool := c.maxSamples != 0

/-- An instance of a shape with the default limit, `2^32 - 1` (R7). -/
def Config.ofShape (sh : Shape) : Config := ⟨sh, BitVec.allOnes 32⟩

end Sys2Proof
end

