-- ==== Sys2Proof/Machine/State.lean ====
section
/-! DEFINITION. The state of the block, as plain data (10_state.md), the reasons a step could stop, and the state right
after reset.

The chunk, the command registers, the response registers and the channels are the spec's. The parameters are carried
beside them (log 1). The last three fields stand for the host, whose behaviour is input (log 2, 4, 7). -/

namespace Sys2Proof.Machine

/-- The chunk's lifecycle position (10_state.md R21); OPEN is `opened`. -/
inductive Phase where
  | opened
  | finalized
  | serialized
  | failed
deriving DecidableEq, Repr

/-- The completion statuses (60_exceptions.md R210). -/
inductive Status where
  | ok
  | unsupportedMagnitude
  | corruptStream
  | ioFailure
  | sequenceError
  | countOverflow
  | illegalCommand
deriving DecidableEq, Repr

/-- The chunk state (10_state.md R20): phase, count, prev_sign, prev_exp, SS, XS and PS. -/
structure Chunk where
  phase    : Phase
  /-- The samples appended since the chunk began (R22). -/
  count    : BitVec 32
  /-- The sign of the sample appended last (R23). -/
  prevSign : Bool
  /-- The raw exponent of the sample appended last (R23): E bits, at most 11; its value is below `2^E` (log 10). -/
  prevExp  : BitVec 11
  /-- SS, the sign-delta stream (R24). -/
  ss       : Bits
  /-- XS, the exponent-delta stream (R24). -/
  xs       : Bits
  /-- PS, the mantissa planes, plane 0 first (R24); M of them. -/
  ps       : List Bits
deriving DecidableEq, Repr

/-- The response registers RSP_STATUS, RSP_DATA, RSP_LEN, RSP_PHASE and RSP_COUNT (10_state.md R29). -/
structure Response where
  status : BitVec 4
  data   : BitVec 64
  len    : BitVec 5
  phase  : BitVec 2
  count  : BitVec 32
deriving DecidableEq, Repr

/-- One item of IN (10_state.md R31). -/
inductive InItem where
  | byte (b : Byte)
  | fail
deriving DecidableEq, Repr

/-- The sink's answer to one `OutByte` (20_memory.md R58). -/
inductive SinkAnswer where
  | ok
  | fail
deriving DecidableEq, Repr

/-- What the host can do to the block (10_state.md R38; 70_reset_and_hazards.md R240, R241; log 2). -/
inductive HostAction where
  /-- Write the CMD register (R28). -/
  | writeCmd (v : BitVec 32)
  /-- Write the ARG_A register (R28). -/
  | writeArgA (v : BitVec 64)
  /-- Write the ARG_B register (R28). -/
  | writeArgB (v : BitVec 8)
  /-- Offer further items on IN (R31). -/
  | offer (items : List InItem)
  /-- Issue the command that the command registers hold (R80). -/
  | issue
  /-- Assert reset while no command is in progress (R240). -/
  | reset
  /-- Issue the command, and assert reset when `moved` channel items of it have moved, or when it has ended (R241,
  log 9). -/
  | issueThenReset (moved : Nat)
deriving DecidableEq, Repr

/-- The whole state. -/
structure State where
  /-- SHAPE and MAX_SAMPLES (00_scope.md R5, R7; log 1). -/
  config      : Config
  chunk       : Chunk
  /-- CMD (10_state.md R28). -/
  cmd         : BitVec 32
  /-- ARG_A (10_state.md R28). -/
  argA        : BitVec 64
  /-- ARG_B (10_state.md R28). -/
  argB        : BitVec 8
  /-- The response registers (10_state.md R29). -/
  rsp         : Response
  /-- OUT, the bytes handed to the sink during the current command (10_state.md R31; log 6). -/
  out         : List Byte
  /-- IN, the items the host's source still offers (10_state.md R31; log 5). -/
  input       : List InItem
  /-- SAMPLES_OUT, the samples delivered by the last successful DESERIALIZE (10_state.md R31; log 12, 16). -/
  samplesOut  : List (BitVec 64)
  /-- The sink's answers to come (20_memory.md R58; log 4). -/
  sinkAnswers : List SinkAnswer
  /-- Every byte the host's sink has accepted (70_reset_and_hazards.md R241; log 7). -/
  sinkStore   : List Byte
  /-- The host's actions to come, the next one first (log 2). -/
  actions     : List HostAction
deriving DecidableEq, Repr

/-- Reasons for a step to stop with a fault: none. The block has no trap, and every error is a status after which it
accepts the next command (60_exceptions.md R221, R222). Safe: no run is cut short. -/
inductive Fault where
deriving DecidableEq, Repr

/-- Reasons for a step to refuse. -/
inductive Refusal where
  /-- Raised by an arm of `exec` whose instruction has no meaning yet; no arm of this model raises it. Safe. -/
  | notModelled (mnemonic : String)
deriving DecidableEq, Repr

/-- The chunk at chunk start: after reset and after NEW (10_state.md R37, 42_chunk_encoder.md R160). -/
def Chunk.fresh (sh : Shape) : Chunk where
  phase := .opened
  count := 0#32
  prevSign := false
  prevExp := 0#11
  ss := []
  xs := []
  ps := List.replicate sh.mantBits []

/-- The response registers after reset (10_state.md R37). -/
def Response.cleared : Response where
  status := 0#4
  data := 0#64
  len := 0#5
  phase := 0#2
  count := 0#32

/-- The state of a given instance right after power-on (10_state.md R37). CMD, ARG_A and ARG_B are unspecified by the
spec and 0 here (DESIGN CHOICE, log 8). The host has offered, accepted and asked for nothing yet (DESIGN CHOICE, log 2,
4, 5, 7). -/
def State.resetFor (cfg : Config) : State where
  config := cfg
  chunk := .fresh cfg.shape
  cmd := 0#32
  argA := 0#64
  argB := 0#8
  rsp := .cleared
  out := []
  input := []
  samplesOut := []
  sinkAnswers := []
  sinkStore := []
  actions := []

/-- The state after reset of an F32 instance with the default MAX_SAMPLES. SHAPE has no default in the spec; F32 is a
DESIGN CHOICE (log 1), and every instance is `State.resetFor`. -/
def State.reset : State := State.resetFor (Config.ofShape .f32)

end Sys2Proof.Machine
end

