-- ==== Sys2Proof/Machine/Flags.lean ====
section
/-! DEFINITION. The condition information of the block. There are no flags (10_state.md R34): what a command leaves to
be tested is RSP_STATUS and RSP_PHASE, whose numbers stand here. -/

namespace Sys2Proof.Machine

/-- The status codes (60_exceptions.md R210). -/
def Status.code : Status → BitVec 4
  | .ok => 0#4
  | .unsupportedMagnitude => 1#4
  | .corruptStream => 2#4
  | .ioFailure => 3#4
  | .sequenceError => 4#4
  | .countOverflow => 5#4
  | .illegalCommand => 6#4

/-- The phase encodings (10_state.md R21). -/
def Phase.code : Phase → BitVec 2
  | .opened => 0#2
  | .finalized => 1#2
  | .serialized => 2#2
  | .failed => 3#2

end Sys2Proof.Machine
end

