-- ==== Sys2Proof/Machine/Operands.lean ====
section
/-! DEFINITION. The operand forms of the commands (30_encoding.md R82) and the widenings of their results (R83).

The decoder takes ARG_A[31:0], ARG_A[15:0] and ARG_B[4:0] apart; here stand the forms that depend on the instance or
that read an operand as a number. -/

namespace Sys2Proof.Machine

/-- APPEND's sample, `ARG_A[W-1:0]`: under F32 the bits `[63:32]` are ignored (R82). -/
def sampleOf (sh : Shape) (argA : BitVec 64) : BitVec 64 := BitVec.ofNat 64 (argA.toNat % 2 ^ sh.width)

/-- VENC's value, `int16(ARG_A[15:0])` (00_scope.md R9). -/
def int16 (v : BitVec 16) : Int := v.toInt

/-- The value of a decoded codeword as RSP_DATA carries it: `sext_64` of its 16-bit two's complement (R83). -/
def sext64 (v : Int) : BitVec 64 := (BitVec.ofInt 16 v).signExtend 64

/-- Bit `k` of a VDEC window, counted from the first: `w[15 - k]` (41_varint_codec.md R145). -/
def windowBit (w : BitVec 16) (k : Nat) : Bool := w.getLsbD (15 - k)

end Sys2Proof.Machine
end

