-- ==== Sys2Proof/Machine/Ops.lean ====
section
/-! DEFINITION. The operations that meanings share: the response, raising an error, the channel primitives and the
readers.

An error is a completion status, never a trap (60_exceptions.md R221): `raiseStatus` is the block's one way to end a
command with an error, and there is no return from it, since after any status the next command is accepted (R222). -/

namespace Sys2Proof.Machine

/-- `respond(status, data, len)` (10_state.md R30): the five response registers, with phase and count as the command
left them. -/
def respond (k : Status) (data : BitVec 64) (len : BitVec 5) (s : State) : State :=
  { s with rsp := ⟨k.code, data, len, s.chunk.phase.code, s.chunk.count⟩ }

/-- `raise K`, which performs `respond(K, d, 0)` (10_state.md R30). -/
def raiseStatus (k : Status) (data : BitVec 64) (s : State) : State := respond k data 0#5 s

/-- What a reader answers: a value, or the status it raises; in both cases the reader as it then stands. -/
inductive ReadResult (σ α : Type) where
  | ok (a : α) (r : σ)
  | raised (k : Status) (r : σ)
deriving DecidableEq, Repr

/-- Read on with the value read, or stop at the status raised (00_scope.md R13: no later line runs). -/
def ReadResult.andThen {σ α β : Type} (x : ReadResult σ α) (f : α → σ → ReadResult σ β) : ReadResult σ β :=
  match x with
  | .ok a r => f a r
  | .raised k r => .raised k r

/-- `OutByte(b)` (20_memory.md R58): whether the sink took the byte, and the state after. Past the answers listed the
sink answers `ok` (DESIGN CHOICE, log 4). -/
def outByte (b : Byte) (s : State) : Bool × State :=
  match s.sinkAnswers with
  | [] => (true, { s with out := s.out ++ [b], sinkStore := s.sinkStore ++ [b] })
  | .ok :: rest => (true, { s with out := s.out ++ [b], sinkStore := s.sinkStore ++ [b], sinkAnswers := rest })
  | .fail :: rest => (false, { s with sinkAnswers := rest })

/-- `OutByte` of each byte in order, counting from `j`, up to the first one refused (42_chunk_encoder.md R175): whether
all were taken, how many were, and the state after. -/
def sendBytes : List Byte → Nat → State → Bool × Nat × State
  | [], j, s => (true, j, s)
  | b :: bs, j, s =>
    match outByte b s with
    | (true, s') => sendBytes bs (j + 1) s'
    | (false, s') => (false, j, s')

/-- `next_byte()` over `InByte()` (20_memory.md R59, 43_chunk_decoder.md R191). The item taken is consumed even when it
is `fail`. -/
def nextByte : List InItem → ReadResult (List InItem) Byte
  | [] => .raised .corruptStream []
  | .fail :: rest => .raised .ioFailure rest
  | .byte b :: rest => .ok b rest

/-- `n` bytes with `next_byte()`. -/
def takeBytes : Nat → List InItem → ReadResult (List InItem) (List Byte)
  | 0, items => .ok [] items
  | n + 1, items =>
    (nextByte items).andThen fun b items =>
      (takeBytes n items).andThen fun bs items => .ok (b :: bs) items

/-- The bit reader of the exponent stream (43_chunk_decoder.md R194): the bits of the byte taken last that are still
unread, `buf[7 - pos]` first, and the items that follow. -/
structure BitReader where
  unread : Bits
  items  : List InItem
deriving DecidableEq, Repr

/-- `read1()` of R194: it takes a byte only when its first bit is needed. -/
def BitReader.read1 (r : BitReader) : ReadResult BitReader Bool :=
  match r.unread with
  | b :: bs => .ok b ⟨bs, r.items⟩
  | [] =>
    match nextByte r.items with
    | .raised k items => .raised k ⟨[], items⟩
    | .ok byte items => .ok (byte.getLsbD 7) ⟨(unpackByte byte).tail, items⟩

/-- `read1()` of VDEC (41_varint_codec.md R145) at position `k` of a window with `a` valid bits. -/
def windowRead1 (w : BitVec 16) (a : Nat) (k : Nat) : ReadResult Nat Bool :=
  if a ≤ k then .raised .corruptStream k else .ok (windowBit w k) (k + 1)

/-- `read1()` over a plain bit sequence: the reader of the codec's laws (41_varint_codec.md R138, R139). -/
def bitsRead1 : Bits → ReadResult Bits Bool
  | [] => .raised .corruptStream []
  | b :: bs => .ok b bs

/-- The start of a command: OUT is the record of the current command, so it begins empty (10_state.md R31, log 6). -/
def beginCommand (s : State) : State := { s with out := [] }

end Sys2Proof.Machine
end

