-- ==== Sys2Proof/Machine/Varint.lean ====
section
/-! DEFINITION. The variable-length signed-integer code (30_encoding.md R85 to R92, 41_varint_codec.md R130 to R137). -/

namespace Sys2Proof.Machine

/-- `vlc_encode(v)` (R130). -/
def vlcEncode (v : Int) : Except Status Bits :=
  if v = 0 then .ok [false, false]
  else if v = 1 then .ok [false, true]
  else if v = -1 then .ok [true, false]
  else
    let mag := v.natAbs
    let s := decide (v < 0)
    if mag ≤ 17 then .ok ([true, true, false] ++ [s] ++ bitsN 4 (mag - 2))
    else if mag ≤ 145 then .ok ([true, true, true, false] ++ [s] ++ bitsN 7 (mag - 18))
    else if mag ≤ 1169 then .ok ([true, true, true, true, false] ++ [s] ++ bitsN 10 (mag - 146))
    else .error .unsupportedMagnitude

/-- `(-1)^s * (base + offset)`: the value of a band codeword (R88, R131). -/
def bandValue (base : Nat) (neg : Bool) (offset : Nat) : Int :=
  if neg then -((base + offset : Nat) : Int) else ((base + offset : Nat) : Int)

section
variable {σ : Type} (read1 : σ → ReadResult σ Bool)

/-- `repeat n times: off = 2*off + read1()` (R131). -/
def readOffset : Nat → Nat → σ → ReadResult σ Nat
  | 0, off, r => .ok off r
  | n + 1, off, r => (read1 r).andThen fun b r => readOffset n (2 * off + b.toNat) r

/-- The sign bit and the offset of a band codeword, after a prefix of `plen` bits (R131). -/
def readBand (n base plen : Nat) (r : σ) : ReadResult σ (Int × Nat) :=
  (read1 r).andThen fun s r =>
    (readOffset read1 n 0 r).andThen fun off r => .ok (bandValue base s off, plen + 1 + n) r

/-- `vlc_decode(read1)` (R131): the value and the number of bits consumed. The reserved prefix stops at once (R136). -/
def vlcDecode (r : σ) : ReadResult σ (Int × Nat) :=
  (read1 r).andThen fun b0 r => (read1 r).andThen fun b1 r =>
    match b0, b1 with
    | false, false => .ok (0, 2) r
    | false, true => .ok (1, 2) r
    | true, false => .ok (-1, 2) r
    | true, true =>
      (read1 r).andThen fun b2 r =>
        if b2 = false then readBand read1 4 2 3 r
        else (read1 r).andThen fun b3 r =>
          if b3 = false then readBand read1 7 18 4 r
          else (read1 r).andThen fun b4 r =>
            if b4 = false then readBand read1 10 146 5 r
            else .raised .corruptStream r

end

end Sys2Proof.Machine
end

