-- ==== Sys2Proof/Machine/Codec.lean ====
section
/-! DEFINITION. The codec commands VENC and VDEC (41_varint_codec.md R140, R145) and the codeword classes (30_encoding.md
R85 to R91).

None of them reads or writes the chunk or a channel (10_state.md R20, 20_memory.md R62). What a codeword class does is
what `vlc_decode` answers for its codeword, shown in the response as VDEC shows it (DEDUCED, log 3). -/

namespace Sys2Proof.Machine

/-- The codec's response for a decoded codeword (R145). -/
def respondValue (v : Int) (len : Nat) (s : State) : State := respond .ok (sext64 v) (BitVec.ofNat 5 len) s

/-- VENC (R140). -/
def execVenc (value : BitVec 16) (s : State) : Host.Outcome State Fault Refusal :=
  match vlcEncode (int16 value) with
  | .ok c => .next (respond .ok ((windowOf c).setWidth 64) (BitVec.ofNat 5 c.length) s)
  | .error k => .next (raiseStatus k 0#64 s)

/-- VDEC (R145). The check of ARG_B's reserved bits is the decoder's. -/
def execVdec (w : BitVec 16) (avail : BitVec 5) (s : State) : Host.Outcome State Fault Refusal :=
  if 16 < avail.toNat then .next (raiseStatus .illegalCommand 0#64 s)
  else
    match vlcDecode (windowRead1 w avail.toNat) 0 with
    | .ok (v, len) _ => .next (respondValue v len s)
    | .raised k _ => .next (raiseStatus k 0#64 s)

/-- Codeword class ZERO: 0 in 2 bits (R85). -/
def execZero (s : State) : Host.Outcome State Fault Refusal := .next (respondValue 0 2 s)

/-- Codeword class PLUS1: +1 in 2 bits (R85). -/
def execPlus1 (s : State) : Host.Outcome State Fault Refusal := .next (respondValue 1 2 s)

/-- Codeword class MINUS1: -1 in 2 bits (R85). -/
def execMinus1 (s : State) : Host.Outcome State Fault Refusal := .next (respondValue (-1) 2 s)

/-- Codeword class BAND4: `(-1)^s * (2 + offset)` in 8 bits (R86 to R88). -/
def execBand4 (neg : Bool) (offset : BitVec 4) (s : State) : Host.Outcome State Fault Refusal :=
  .next (respondValue (bandValue 2 neg offset.toNat) 8 s)

/-- Codeword class BAND7: `(-1)^s * (18 + offset)` in 12 bits (R86 to R88). -/
def execBand7 (neg : Bool) (offset : BitVec 7) (s : State) : Host.Outcome State Fault Refusal :=
  .next (respondValue (bandValue 18 neg offset.toNat) 12 s)

/-- Codeword class BAND10: `(-1)^s * (146 + offset)` in 16 bits (R86 to R88). -/
def execBand10 (neg : Bool) (offset : BitVec 10) (s : State) : Host.Outcome State Fault Refusal :=
  .next (respondValue (bandValue 146 neg offset.toNat) 16 s)

/-- The reserved prefix: CORRUPT_STREAM (R90, R136). -/
def execReserved (s : State) : Host.Outcome State Fault Refusal := .next (raiseStatus .corruptStream 0#64 s)

end Sys2Proof.Machine
end

