-- ==== Sys2Proof/Machine/FloatFields.lean ====
section
/-! DEFINITION. The float-field unit (40_float_fields.md): extraction, reassembly and circular exponent arithmetic.

A sample is a W-bit pattern in the low W bits of a 64-bit vector (log 12). Exponents, mantissas and deltas are
mathematical integers, as the rules write them (00_scope.md R8). No floating-point arithmetic is done (R122). -/

namespace Sys2Proof.Machine

/-- `get_sign(v) = v[W-1]` (R111). -/
def getSign (sh : Shape) (v : BitVec 64) : Bool := v.getLsbD (sh.width - 1)

/-- `get_exp(v) = v[W-2:M]` (R112). -/
def getExp (sh : Shape) (v : BitVec 64) : Nat := (v.toNat >>> sh.mantBits) % 2 ^ sh.expBits

/-- `get_mantissa(v) = v[M-1:0]` (R113). -/
def getMantissa (sh : Shape) (v : BitVec 64) : Nat := v.toNat % 2 ^ sh.mantBits

/-- `from_parts(s, e, m) = (s << (W-1)) | ((e mod 2^E) << M) | (m mod 2^M)` (R114). -/
def fromParts (sh : Shape) (s : Bool) (e m : Nat) : BitVec 64 :=
  BitVec.ofNat 64
    ((s.toNat <<< (sh.width - 1)) ||| ((e % 2 ^ sh.expBits) <<< sh.mantBits) ||| (m % 2 ^ sh.mantBits))

/-- `exp_diff(prev, curr)` (R116). -/
def expDiff (sh : Shape) (prev curr : Nat) : Int :=
  let r : Int := ((curr : Int) - (prev : Int)) % 2 ^ sh.expBits
  if r > 2 ^ (sh.expBits - 1) then r - 2 ^ sh.expBits else r

/-- `exp_adv(prev, delta) = (prev + delta) mod 2^E`, for every integer delta (R117). -/
def expAdv (sh : Shape) (prev : Nat) (delta : Int) : Nat := (((prev : Int) + delta) % 2 ^ sh.expBits).toNat

/-- `is_even(e)`, applied to the raw exponent (R12, R120). -/
def isEven (e : Nat) : Bool := e % 2 == 0

/-- The bit APPEND writes to plane `i`: `(m[i] == 0) xor is_even(e)` (42_chunk_encoder.md R165). -/
def planeBit (m e i : Nat) : Bool := (m.testBit i == false) ^^ isEven e

end Sys2Proof.Machine
end

