-- ==== Sys2Proof/Machine/Decoder.lean ====
section
/-! DEFINITION. The chunk decoder: DESERIALIZE (43_chunk_decoder.md).

It neither reads nor writes the chunk, and keeps nothing between commands (10_state.md R36). -/

namespace Sys2Proof.Machine

/-- `read_count()` (R192). -/
def readCount (maxSamples : Nat) (items : List InItem) : ReadResult (List InItem) Nat :=
  (nextByte items).andThen fun c0 items => (nextByte items).andThen fun c1 items =>
    (nextByte items).andThen fun c2 items => (nextByte items).andThen fun c3 items =>
      let n := countOfBytes c0 c1 c2 c3
      if n > maxSamples then .raised .countOverflow items else .ok n items

/-- `sign[k] = sign[k-1] xor sb{k}`, from a given `sign[-1]` (R193). -/
def signsOf : Bool → Bits → Bits
  | _, [] => []
  | prev, b :: bs => (prev ^^ b) :: signsOf (prev ^^ b) bs

/-- `decode_signs(n, S)` (R193). The pad bits are not read as signs (R198). -/
def decodeSigns (n : Nat) (items : List InItem) : ReadResult (List InItem) Bits :=
  (takeBytes (ceilDiv8 n) items).andThen fun bytes items => .ok (signsOf false ((unpack bytes).take n)) items

/-- The loop of `decode_exps`: `n` more codewords from exponent `prev` on (R194). -/
def expLoop (sh : Shape) : Nat → Nat → BitReader → ReadResult BitReader (List Nat)
  | 0, _, r => .ok [] r
  | n + 1, prev, r =>
    (vlcDecode BitReader.read1 r).andThen fun d r =>
      (expLoop sh n (expAdv sh prev d.1) r).andThen fun es r => .ok (expAdv sh prev d.1 :: es) r

/-- `decode_exps(n)` (R194), then the byte alignment of R195: the unread bits of the last byte are dropped. -/
def decodeExps (sh : Shape) (n : Nat) (items : List InItem) : ReadResult (List InItem) (List Nat) :=
  match expLoop sh n 0 ⟨[], items⟩ with
  | .ok es r => .ok es r.items
  | .raised k r => .raised k r.items

/-- The bits of `m` planes of `S` bytes each, in order (R197). -/
def takePlanes : Nat → Nat → List InItem → ReadResult (List InItem) (List Bits)
  | 0, _, items => .ok [] items
  | m + 1, S, items =>
    (takeBytes S items).andThen fun bytes items =>
      (takePlanes m S items).andThen fun ps items => .ok (unpack bytes :: ps) items

/-- The mantissa of sample `k`: bit `i` is `pb_i{k} xor exp[k][0]` (R197). -/
def mantissaAt (k : Nat) (odd : Bool) : List Bits → Nat
  | [] => 0
  | p :: ps => (p.getD k false ^^ odd).toNat + 2 * mantissaAt k odd ps

/-- The reassembly of the samples (R190). -/
def reassemble (sh : Shape) (n : Nat) (signs : Bits) (exps : List Nat) (planes : List Bits) : List (BitVec 64) :=
  (List.range n).map fun k =>
    fromParts sh (signs.getD k false) (exps.getD k 0) (mantissaAt k ((exps.getD k 0).testBit 0) planes)

/-- The whole decoding of one container: the samples, and the items left (R190, R196). -/
def decodeContainer (cfg : Config) (items : List InItem) : ReadResult (List InItem) (List (BitVec 64)) :=
  (readCount cfg.maxSamples.toNat items).andThen fun n items =>
    (decodeSigns n items).andThen fun signs items =>
      (decodeExps cfg.shape n items).andThen fun exps items =>
        (takePlanes cfg.shape.mantBits (ceilDiv8 n) items).andThen fun planes items =>
          .ok (reassemble cfg.shape n signs exps planes) items

/-- DESERIALIZE (R190). The items taken stay taken; SAMPLES_OUT is written on success alone (R199). -/
def execDeserialize (s : State) : Host.Outcome State Fault Refusal :=
  match decodeContainer s.config s.input with
  | .ok samples items =>
    .next (respond .ok (BitVec.ofNat 64 samples.length) 0#5 { s with samplesOut := samples, input := items })
  | .raised k items => .next (raiseStatus k 0#64 { s with input := items })

end Sys2Proof.Machine
end

