-- ==== Sys2Proof/Machine/Encoder.lean ====
section
/-! DEFINITION. The chunk encoder: NEW, APPEND, FINALIZE and SERIALIZE (42_chunk_encoder.md). -/

namespace Sys2Proof.Machine

/-- NEW (R160): a fresh chunk in every phase. Nothing reads the hint (R161). -/
def execNew (_hint : BitVec 32) (s : State) : Host.Outcome State Fault Refusal :=
  .next (respond .ok 0#64 0#5 { s with chunk := Chunk.fresh s.config.shape })

/-- The bit-plane transposition (R165) and the update of prev_sign, prev_exp and count (R163), for a sample `v` whose
exponent codeword is `c`. -/
def Chunk.push (sh : Shape) (v : BitVec 64) (c : Bits) (k : Chunk) : Chunk where
  phase := k.phase
  count := k.count + 1#32
  prevSign := getSign sh v
  prevExp := BitVec.ofNat 11 (getExp sh v)
  ss := k.ss ++ [getSign sh v ^^ k.prevSign]
  xs := k.xs ++ c
  ps := k.ps.zipIdx.map fun (p, i) => p ++ [planeBit (getMantissa sh v) (getExp sh v) i]

/-- APPEND's exponent codeword: `vlc_encode(exp_diff(prev_exp, get_exp(v)))` (R163). -/
def appendCodeword (sh : Shape) (v : BitVec 64) (k : Chunk) : Except Status Bits :=
  vlcEncode (expDiff sh k.prevExp.toNat (getExp sh v))

/-- APPEND (R163), its checks in the order of R164. The codec's refusal is kept though no sample meets it
(90_conflicts.md C3). -/
def execAppend (argA : BitVec 64) (s : State) : Host.Outcome State Fault Refusal :=
  if s.chunk.phase ≠ .opened then .next (raiseStatus .sequenceError 0#64 s)
  else if s.chunk.count = s.config.maxSamples then .next (raiseStatus .countOverflow 0#64 s)
  else
    match appendCodeword s.config.shape (sampleOf s.config.shape argA) s.chunk with
    | .error k => .next (raiseStatus k 0#64 s)
    | .ok c =>
      .next (respond .ok 0#64 (BitVec.ofNat 5 c.length)
        { s with chunk := s.chunk.push s.config.shape (sampleOf s.config.shape argA) c })

/-- Byte-align every stream on its own (R170). -/
def Chunk.align (k : Chunk) : Chunk :=
  { k with ss := pad8 k.ss, xs := pad8 k.xs, ps := k.ps.map pad8, phase := .finalized }

/-- FINALIZE (R170, R171). -/
def execFinalize (s : State) : Host.Outcome State Fault Refusal :=
  if s.chunk.phase ≠ .opened then .next (raiseStatus .sequenceError 0#64 s)
  else .next (respond .ok 0#64 0#5 { s with chunk := s.chunk.align })

/-- The bytes SERIALIZE sends (R175): the count, then each stream whole, the planes in ascending order. -/
def Chunk.bytes (k : Chunk) : List Byte := be32 k.count ++ pack k.ss ++ pack k.xs ++ k.ps.flatMap pack

/-- The chunk in another phase. -/
def Chunk.inPhase (k : Chunk) (p : Phase) : Chunk := { k with phase := p }

/-- SERIALIZE (R175 to R177). -/
def execSerialize (s : State) : Host.Outcome State Fault Refusal :=
  if s.chunk.phase ≠ .finalized then .next (raiseStatus .sequenceError 0#64 s)
  else
    match sendBytes s.chunk.bytes 0 s with
    | (true, j, s') => .next (respond .ok (BitVec.ofNat 64 j) 0#5 { s' with chunk := s'.chunk.inPhase .serialized })
    | (false, j, s') => .next (raiseStatus .ioFailure (BitVec.ofNat 64 j) { s' with chunk := s'.chunk.inPhase .failed })

end Sys2Proof.Machine
end

