-- ==== Sys2Proof/Machine/Dispatch.lean ====
section
/-! DEFINITION. The meaning of every instruction: one arm per constructor of Instr. -/

namespace Sys2Proof.Machine

-- The commands (30_encoding.md R81), then the codeword classes (R85).
def exec (i : Instr) (s : State) : Host.Outcome State Fault Refusal :=
  match i with
  | .new hint => Sys2Proof.Machine.execNew hint s
  | .append argA => Sys2Proof.Machine.execAppend argA s
  | .finalize => Sys2Proof.Machine.execFinalize s
  | .serialize => Sys2Proof.Machine.execSerialize s
  | .deserialize => Sys2Proof.Machine.execDeserialize s
  | .venc value => Sys2Proof.Machine.execVenc value s
  | .vdec window avail => Sys2Proof.Machine.execVdec window avail s
  | .zero => Sys2Proof.Machine.execZero s
  | .plus1 => Sys2Proof.Machine.execPlus1 s
  | .minus1 => Sys2Proof.Machine.execMinus1 s
  | .band4 neg offset => Sys2Proof.Machine.execBand4 neg offset s
  | .band7 neg offset => Sys2Proof.Machine.execBand7 neg offset s
  | .band10 neg offset => Sys2Proof.Machine.execBand10 neg offset s
  | .reserved => Sys2Proof.Machine.execReserved s

end Sys2Proof.Machine
end

