-- ==== Sys2Proof/Machine/Host.lean ====
section
/-! DEFINITION. What each host action does (10_state.md R38, 70_reset_and_hazards.md R240, R241; log 2). -/

namespace Sys2Proof.Machine

/-- The command the registers hold, sampled once at issue (10_state.md R28, 70_reset_and_hazards.md R245). -/
def fetch (s : State) : Command := ⟨s.cmd, s.argA, s.argB⟩

/-- An illegal command word: ILLEGAL_COMMAND, no state changed and no item moved (60_exceptions.md R211). -/
def illegalCommand (s : State) : State := raiseStatus .illegalCommand 0#64 s

/-- Issue the command that the registers hold: one atomic step (00_scope.md R6). ILLEGAL_COMMAND comes before every
other check (60_exceptions.md R220). -/
def issueCommand (s : State) : Host.Outcome State Fault Refusal :=
  match decodeCommand (fetch s) with
  | .ok i => exec i (beginCommand s)
  | .error _ => .next (illegalCommand (beginCommand s))

/-- The reset event (70_reset_and_hazards.md R240): every element of 10_state.md R37 at its value. The parameters, the
host's items, answers and further actions, and the bytes the sink accepted are not the block's and stay. -/
def resetEvent (s : State) : State :=
  { State.resetFor s.config with
    input := s.input, sinkAnswers := s.sinkAnswers, sinkStore := s.sinkStore, actions := s.actions }

/-- What stays moved when a reset abandons a command of `s` that would have ended in `s'`, once `moved` of its channel
items have moved (70_reset_and_hazards.md R241): the items of IN taken by then, the bytes and the answers of the sink by
then. A command that moves fewer items has ended before the reset. -/
def abandon (moved : Nat) (s s' : State) : State :=
  { s with
    input := s.input.drop (min moved (s.input.length - s'.input.length))
    sinkAnswers := s.sinkAnswers.drop (min moved (s.sinkAnswers.length - s'.sinkAnswers.length))
    sinkStore := s.sinkStore ++ s'.out.take moved }

/-- Issue a command and assert reset during it (70_reset_and_hazards.md R241, log 9). -/
def issueThenReset (moved : Nat) (s : State) : Host.Outcome State Fault Refusal :=
  match issueCommand s with
  | .next s' => .next (resetEvent (abandon moved s s'))
  | .fault r => .fault r
  | .refused r => .refused r

/-- One host action. -/
def act (a : HostAction) (s : State) : Host.Outcome State Fault Refusal :=
  match a with
  | .writeCmd v => .next { s with cmd := v }
  | .writeArgA v => .next { s with argA := v }
  | .writeArgB v => .next { s with argB := v }
  | .offer items => .next { s with input := s.input ++ items }
  | .issue => issueCommand s
  | .reset => .next (resetEvent s)
  | .issueThenReset moved => issueThenReset moved s

/-- The host's next action; without one the block waits (70_reset_and_hazards.md R242). -/
def nextAction (s : State) : Host.Outcome State Fault Refusal :=
  match s.actions with
  | [] => .next s
  | a :: rest => act a { s with actions := rest }

/-- Laying an instruction where the next step fetches it (log 2, 3, 13): the host has written the command registers and
issues the command. A codeword is handed over through VDEC, with all 16 bits of its window valid. -/
def placeCommand (code : Code) (s : State) : State :=
  match code with
  | .command c => { s with cmd := c.cmd, argA := c.argA, argB := c.argB, actions := .issue :: s.actions }
  | .window w => { s with cmd := 7#32, argA := w.setWidth 64, argB := 16#8, actions := .issue :: s.actions }

end Sys2Proof.Machine
end

