-- ==== Sys2Proof/Machine/Step.lean ====
section
/-! DEFINITION. One step: the host's next action, whole (00_scope.md R6). -/

namespace Sys2Proof.Machine

/-- One step. The block fetches nothing (10_state.md R33): the next instruction is the command that the host's next
action issues. -/
def step (s : State) : Host.Outcome State Fault Refusal := nextAction s

/-- The instruction numbered as the opcode table numbers it, laid where `step` takes its next one. -/
def State.withFetchWord (s : State) (nbits w : Nat) : State := placeCommand (Code.ofTable nbits w) s

end Sys2Proof.Machine
end

