-- ==== Sys2Proof/Safety.lean ====
section
/-! DEFINITION. The words the statements use: the invariant of the block, runs of instructions, the closed forms that the
spec's laws give for the streams and the container, and the table of statuses. -/

namespace Sys2Proof.Machine

/-- A value the code can represent (30_encoding.md R85). -/
abbrev InVlcRange (v : Int) : Prop := -1169 ≤ v ∧ v ≤ 1169

/-- The codeword of a value; empty where there is none. -/
def codeword (v : Int) : Bits :=
  match vlcEncode v with
  | .ok c => c
  | .error _ => []

/-- The concatenated codewords of a list of values (41_varint_codec.md R139). -/
def codewords (ds : List Int) : Bits := ds.flatMap codeword

/-- What the spec's invariants say of the chunk: R22, R23, R24, and the stream lengths of R25 (OPEN) and R26 (the other
phases), with the exponent stream made of `count` codewords. -/
structure Chunk.Wf (cfg : Config) (k : Chunk) : Prop where
  count_le : k.count.toNat ≤ cfg.maxSamples.toNat
  prevExp_lt : k.prevExp.toNat < 2 ^ cfg.shape.expBits
  planes : k.ps.length = cfg.shape.mantBits
  opened_lengths : k.phase = .opened →
    k.ss.length = k.count.toNat ∧ (∀ p ∈ k.ps, p.length = k.count.toNat) ∧
    ∃ ds : List Int, ds.length = k.count.toNat ∧ (∀ d ∈ ds, InVlcRange d) ∧ k.xs = codewords ds
  aligned_lengths : k.phase ≠ .opened →
    k.ss.length = 8 * ceilDiv8 k.count.toNat ∧ (∀ p ∈ k.ps, p.length = 8 * ceilDiv8 k.count.toNat) ∧
    ∃ ds : List Int, ds.length = k.count.toNat ∧ (∀ d ∈ ds, InVlcRange d) ∧
      k.xs = codewords ds ++ List.replicate (8 * ceilDiv8 (codewords ds).length - (codewords ds).length) false

/-- The invariant of the block: a legal instance (R7), a well-formed chunk, response registers with legal values that
copy phase and count (10_state.md R29, R30), and samples of W bits (R31). -/
structure State.Inv (s : State) : Prop where
  config : s.config.wf = true
  chunk : s.chunk.Wf s.config
  status : s.rsp.status.toNat ≤ 6
  len : s.rsp.len.toNat ≤ 16
  phase_copy : s.rsp.phase = s.chunk.phase.code
  count_copy : s.rsp.count = s.chunk.count
  samples : ∀ v ∈ s.samplesOut, v.toNat < 2 ^ s.config.shape.width

/-- Instructions run one after another. -/
def runAll : List Instr → State → Host.Outcome State Fault Refusal
  | [], s => .next s
  | i :: is, s =>
    match exec i s with
    | .next t => runAll is t
    | .fault r => .fault r
    | .refused r => .refused r

/-- Decoding `n` codewords by `n` calls on one reader (41_varint_codec.md R139). -/
def decodeMany {σ : Type} (read1 : σ → ReadResult σ Bool) : Nat → σ → ReadResult σ (List Int)
  | 0, r => .ok [] r
  | n + 1, r => (vlcDecode read1 r).andThen fun d r => (decodeMany read1 n r).andThen fun ds r => .ok (d.1 :: ds) r

/-- The bits of ARG_A that the command with code `op` reads (30_encoding.md R82); for APPEND all, of which F32 ignores the
upper half. -/
def argAMask : Nat → BitVec 64
  | 1 => 0xFFFFFFFF
  | 2 => BitVec.allOnes 64
  | 6 => 0xFFFF
  | 7 => 0xFFFF
  | _ => 0

/-- `vs` as a list of W-bit patterns. -/
abbrev AllOfWidth (sh : Shape) (vs : List (BitVec 64)) : Prop := ∀ v ∈ vs, v.toNat < 2 ^ sh.width

/-- The sign stream of samples `vs` (42_chunk_encoder.md R166): bit `k` is `sign[k-1] xor sign[k]`. The all-zero pattern
put in front has sign 0 and exponent 0, as R166 and R168 want of `sign[-1]` and `exp[-1]`. -/
def signStream (sh : Shape) (vs : List (BitVec 64)) : Bits :=
  List.zipWith (fun p v => getSign sh p ^^ getSign sh v) (0#64 :: vs) vs

/-- The exponent deltas of samples `vs` (42_chunk_encoder.md R168). -/
def deltas (sh : Shape) (vs : List (BitVec 64)) : List Int :=
  List.zipWith (fun p v => expDiff sh (getExp sh p) (getExp sh v)) (0#64 :: vs) vs

/-- Plane `i` of samples `vs` (42_chunk_encoder.md R167, R178): `m[i] xor e[0]` of each. -/
def planeStream (sh : Shape) (vs : List (BitVec 64)) (i : Nat) : Bits :=
  vs.map fun v => (getMantissa sh v).testBit i ^^ (getExp sh v).testBit 0

/-- The container of samples `vs` (42_chunk_encoder.md R178). -/
def container (sh : Shape) (vs : List (BitVec 64)) : List Byte :=
  be32 (BitVec.ofNat 32 vs.length) ++ pack (pad8 (signStream sh vs)) ++ pack (pad8 (codewords (deltas sh vs)))
    ++ (List.range sh.mantBits).flatMap fun i => pack (pad8 (planeStream sh vs i))

/-- The commands that build and emit the container of `vs` (70_reset_and_hazards.md R246). -/
def encodeProgram (hint : BitVec 32) (vs : List (BitVec 64)) : List Instr :=
  .new hint :: vs.map .append ++ [.finalize, .serialize]

/-- A container as a decoder meets it: a count, a sign stream, the codewords of `ds` with pad bits `xpad`, and the planes
`pbs`. Its pad bits and deltas need not be an encoder's (43_chunk_decoder.md R201). -/
structure Layout where
  n    : Nat
  sb   : Bits
  ds   : List Int
  xpad : Bits
  pbs  : List Bits

/-- The lengths that 20_memory.md R53 gives the parts of a container, and deltas that have codewords. -/
structure Layout.Fits (sh : Shape) (L : Layout) : Prop where
  sb : L.sb.length = 8 * ceilDiv8 L.n
  ds : L.ds.length = L.n
  range : ∀ d ∈ L.ds, InVlcRange d
  xpad : (codewords L.ds ++ L.xpad).length = 8 * ceilDiv8 (codewords L.ds).length
  planes : L.pbs.length = sh.mantBits
  plane : ∀ p ∈ L.pbs, p.length = 8 * ceilDiv8 L.n

/-- The bytes of a container (20_memory.md R53). -/
def Layout.bytes (L : Layout) : List Byte :=
  be32 (BitVec.ofNat 32 L.n) ++ pack L.sb ++ pack (codewords L.ds ++ L.xpad) ++ L.pbs.flatMap pack

/-- Sample `k` of a container, in closed form: the sign is the parity of the stored bits up to `k` (43_chunk_decoder.md
R193), the exponent the sum of the deltas up to `k`, modulo `2^E` (R194), and mantissa bit `i` the stored plane bit, flipped
when the exponent is odd (R197). -/
def Layout.sample (sh : Shape) (L : Layout) (k : Nat) : BitVec 64 :=
  let s := (L.sb.take (k + 1)).foldl xor false
  let e := ((L.ds.take (k + 1)).sum % 2 ^ sh.expBits).toNat
  let m := (L.pbs.zipIdx.map fun (p, i) => (p.getD k false ^^ e.testBit 0).toNat * 2 ^ i).sum
  fromParts sh s e m

/-- All samples of a container. -/
def Layout.samples (sh : Shape) (L : Layout) : List (BitVec 64) := (List.range L.n).map (L.sample sh)

/-- The items a host offers for bytes it has. -/
def itemsOf (bs : List Byte) : List InItem := bs.map .byte

/-- The statuses the command with code `op` can end in (60_exceptions.md R210, R219): those of its row, and OK for a
command that exists. -/
def statusTable : Nat → List Status
  | 1 => [.ok, .illegalCommand]
  | 2 => [.ok, .illegalCommand, .sequenceError, .countOverflow]
  | 3 => [.ok, .illegalCommand, .sequenceError]
  | 4 => [.ok, .illegalCommand, .sequenceError, .ioFailure]
  | 5 => [.ok, .illegalCommand, .countOverflow, .corruptStream, .ioFailure]
  | 6 => [.ok, .illegalCommand, .unsupportedMagnitude]
  | 7 => [.ok, .illegalCommand, .corruptStream]
  | _ => [.illegalCommand]

/-- The response registers after a command on a chunk `k` (10_state.md R30), the status by its number. -/
def answer (code : BitVec 4) (data : BitVec 64) (len : BitVec 5) (k : Chunk) : Response :=
  ⟨code, data, len, k.phase.code, k.count⟩

/-- The reset values of 10_state.md R37, for an instance `cfg`. -/
abbrev HasResetValues (cfg : Config) (t : State) : Prop :=
  t.config = cfg ∧ t.chunk.phase = .opened ∧ t.chunk.count = 0 ∧ t.chunk.prevSign = false ∧ t.chunk.prevExp = 0 ∧
    t.chunk.ss = [] ∧ t.chunk.xs = [] ∧ t.chunk.ps = List.replicate cfg.shape.mantBits [] ∧
    t.rsp.status = 0 ∧ t.rsp.data = 0 ∧ t.rsp.len = 0 ∧ t.rsp.phase = 0 ∧ t.rsp.count = 0 ∧
    t.out = [] ∧ t.samplesOut = []

/-- The fields no instruction writes: the parameters, the command registers and the host's plan. -/
abbrev KeepsHostSide (s t : State) : Prop :=
  t.config = s.config ∧ t.cmd = s.cmd ∧ t.argA = s.argA ∧ t.argB = s.argB ∧ t.actions = s.actions

/-- The channels and what the host holds of them are unchanged. -/
abbrev KeepsChannels (s t : State) : Prop :=
  t.out = s.out ∧ t.input = s.input ∧ t.samplesOut = s.samplesOut ∧ t.sinkAnswers = s.sinkAnswers ∧
    t.sinkStore = s.sinkStore

end Sys2Proof.Machine
end

