-- ==== Sys2Proof/Certificates/Slice0/Obligations.lean ====
section
/-! DEFINITION. The statements for the provers: nothing here is proved. Each docstring names the rule or the section of
spec/ that its statement formalises. -/

open Sys2Proof Sys2Proof.Machine

/-! ## Encodings -/

/-- 30_encoding.md R81, R82, R87, R91, read both ways: decoding an encoded well-formed instruction gives it back, with
every operand. -/
def Obligations.DecodeEncodeRoundTrip : Prop :=
  ∀ i : Instr, i.wellFormed = true → decode (encode i) = .ok i

/-- 30_encoding.md R81, R82 the other way round: a command the decoder accepts is well formed, is no codeword class, and
encodes to the same CMD word, with the operand bits that the command reads as they were and every other operand bit 0. -/
def Obligations.AcceptedCommandsEncodeBack : Prop :=
  ∀ (c : Command) (i : Instr), decodeCommand c = .ok i →
    i.wellFormed = true ∧ i.isCodeword = false ∧
    encode i = .command ⟨c.cmd, c.argA &&& argAMask c.op.toNat, if c.op = 7 then c.argB else 0⟩

/-- 30_encoding.md R81, R82, R87: words written out from the tables of the spec. -/
def Obligations.WrittenOutWordsDecode : Prop :=
  decode (.command ⟨0x00000001, 0x0000000000000400, 0x00⟩) = .ok (.new 1024) ∧
  decode (.command ⟨0x00000002, 0x00000000BEAAAAAB, 0x00⟩) = .ok (.append 0xBEAAAAAB) ∧
  decode (.command ⟨0x00000006, 0x000000000000FFFE, 0x00⟩) = .ok (.venc 0xFFFE) ∧
  decode (.command ⟨0x00000007, 0x000000000000D000, 0x08⟩) = .ok (.vdec 0xD000 8) ∧
  decode (.window 0b1101000000000000) = .ok (.band4 true 0) ∧
  decode (.window 0b1110011011010000) = .ok (.band7 false 109) ∧
  decode (.window 0b1111011111111111) = .ok (.band10 true 1023)

/-- 30_encoding.md R84 and 60_exceptions.md R211: exactly these words are illegal. Issuing one ends in ILLEGAL_COMMAND,
changes no state and touches no channel; every other word is a command. That the action is used up, and that OUT, the
record of the current command, is empty after it, are the model's (log 2, 6). -/
def Obligations.IllegalWordsAreRefused : Prop :=
  ∀ (s : State) (rest : List HostAction),
    s.actions = .issue :: rest →
    (let illegal := s.cmd.extractLsb' 4 28 ≠ 0 ∨ s.cmd.extractLsb' 0 4 = 0 ∨ 8 ≤ (s.cmd.extractLsb' 0 4).toNat ∨
       (s.cmd.extractLsb' 0 4 = 7 ∧ (16 < (s.argB.extractLsb' 0 5).toNat ∨ s.argB.extractLsb' 5 3 ≠ 0))
     (illegal → ∃ t, step s = .next t ∧ t.rsp = answer 6 0 0 s.chunk ∧ t.chunk = s.chunk ∧ t.config = s.config ∧
       t.input = s.input ∧ t.samplesOut = s.samplesOut ∧ t.sinkAnswers = s.sinkAnswers ∧ t.sinkStore = s.sinkStore ∧
       t.cmd = s.cmd ∧ t.argA = s.argA ∧ t.argB = s.argB ∧ t.out = [] ∧ t.actions = rest) ∧
     (¬ illegal → ∃ i, decodeCommand (fetch s) = .ok i))

/-- 30_encoding.md R91: the seven (match, mask) pairs partition the windows, and a window decodes to the class it matches,
with the fields of the table. -/
def Obligations.WindowClassesPartition : Prop :=
  ∀ w : BitVec 16,
    (windowRows.filter fun r => w &&& r.2 == r.1).length = 1 ∧
    (w &&& 0xC000 = 0x0000 → decodeWindow w = .zero) ∧
    (w &&& 0xC000 = 0x4000 → decodeWindow w = .plus1) ∧
    (w &&& 0xC000 = 0x8000 → decodeWindow w = .minus1) ∧
    (w &&& 0xE000 = 0xC000 → decodeWindow w = .band4 (w.getLsbD 12) (w.extractLsb' 8 4)) ∧
    (w &&& 0xF000 = 0xE000 → decodeWindow w = .band7 (w.getLsbD 11) (w.extractLsb' 4 7)) ∧
    (w &&& 0xF800 = 0xF000 → decodeWindow w = .band10 (w.getLsbD 10) (w.extractLsb' 0 10)) ∧
    (w &&& 0xF800 = 0xF800 → decodeWindow w = .reserved)

/-! ## The step -/

/-- 00_scope.md R6, 70_reset_and_hazards.md R245: a step that issues a command runs the instruction its registers decode
to, from the state in which the action is used up and OUT is empty (log 2, 6). -/
def Obligations.StepRunsDecodedInstruction : Prop :=
  ∀ (s : State) (rest : List HostAction) (i : Instr),
    s.actions = .issue :: rest → decode (.command (fetch s)) = .ok i →
    step s = exec i { s with actions := rest, out := [] }

/-- 10_state.md R28, R31, R38 and 70_reset_and_hazards.md R242: a host write changes its register alone, an offer extends
IN alone, and a block without a host action waits. The host's actions are the model's (log 2). -/
def Obligations.HostWritesTouchOneRegister : Prop :=
  ∀ (s : State) (rest : List HostAction),
    (s.actions = [] → step s = .next s) ∧
    (∀ v, s.actions = .writeCmd v :: rest → step s = .next { s with actions := rest, cmd := v }) ∧
    (∀ v, s.actions = .writeArgA v :: rest → step s = .next { s with actions := rest, argA := v }) ∧
    (∀ v, s.actions = .writeArgB v :: rest → step s = .next { s with actions := rest, argB := v }) ∧
    (∀ l, s.actions = .offer l :: rest → step s = .next { s with actions := rest, input := s.input ++ l })

/-- 60_exceptions.md R221, R222, 70_reset_and_hazards.md R250: no state stops the block. -/
def Obligations.EveryStepHasANextState : Prop := ∀ s : State, ∃ t, step s = .next t

/-- 10_state.md R28, 00_scope.md R5: no instruction writes the command registers or the parameters, nor the host's plan. -/
def Obligations.NoInstructionWritesCommandRegisters : Prop :=
  ∀ (i : Instr) (s t : State), exec i s = .next t → KeepsHostSide s t

/-! ## Reset and invariants -/

/-- 70_reset_and_hazards.md R240 with 10_state.md R37: the values after reset, at power-on and after the reset event
between commands. CMD, ARG_A and ARG_B are unspecified by the spec and are not stated. -/
def Obligations.ResetEventValues : Prop :=
  (∀ cfg : Config, HasResetValues cfg (State.resetFor cfg)) ∧
  (∀ (s : State) (rest : List HostAction), s.actions = .reset :: rest →
    ∃ t, step s = .next t ∧ HasResetValues s.config t ∧
      t.input = s.input ∧ t.sinkAnswers = s.sinkAnswers ∧ t.sinkStore = s.sinkStore)

/-- 70_reset_and_hazards.md R241: a reset during a command, once `k` of its channel items have moved. No response is
written, the first `k` items the command takes from IN, or all if it takes fewer, stay taken, the first `k` bytes it hands
over stay with the sink with their answers used, and the block is as after R240. The number in the host's action is the
model's (log 9). -/
def Obligations.ResetDuringCommandKeepsMovedItems : Prop :=
  ∀ (s : State) (rest : List HostAction) (k : Nat), s.actions = .issueThenReset k :: rest →
    ∃ t u : State, step s = .next t ∧
      issueCommand { s with actions := rest } = .next u ∧
      HasResetValues s.config t ∧ t.actions = rest ∧
      t.input = s.input.drop (min k (s.input.length - u.input.length)) ∧
      (s.input.length - u.input.length ≤ k → t.input = u.input) ∧
      t.sinkStore = s.sinkStore ++ u.out.take k ∧
      t.sinkAnswers = s.sinkAnswers.drop (min k (s.sinkAnswers.length - u.sinkAnswers.length)) ∧
      (u.out.length < k → t.sinkAnswers = u.sinkAnswers)

/-- The reset state of every legal instance meets the invariant (10_state.md R37). -/
def Obligations.ResetMeetsInvariant : Prop :=
  ∀ cfg : Config, cfg.wf = true → (State.resetFor cfg).Inv

/-- 10_state.md R22 to R26, R29, R30: every step keeps the invariant. -/
def Obligations.StepKeepsInvariant : Prop :=
  ∀ s t : State, s.Inv → step s = .next t → t.Inv

/-- 10_state.md R25: the stream lengths while the phase is OPEN. -/
def Obligations.OpenStreamLengths : Prop :=
  ∀ s t : State, s.Inv → step s = .next t → t.chunk.phase = .opened →
    t.chunk.ss.length = t.chunk.count.toNat ∧
    (∀ p ∈ t.chunk.ps, p.length = t.chunk.count.toNat) ∧
    ∃ ls : List Nat, ls.length = t.chunk.count.toNat ∧ (∀ l ∈ ls, l ∈ [2, 8, 12, 16]) ∧ t.chunk.xs.length = ls.sum

/-- 10_state.md R26: the stream lengths in the other phases. -/
def Obligations.AlignedStreamLengths : Prop :=
  ∀ s t : State, s.Inv → step s = .next t → t.chunk.phase ≠ .opened →
    t.chunk.ss.length = 8 * ((t.chunk.count.toNat + 7) / 8) ∧
    (∀ p ∈ t.chunk.ps, p.length = 8 * ((t.chunk.count.toNat + 7) / 8)) ∧
    ∃ ls : List Nat, ls.length = t.chunk.count.toNat ∧ (∀ l ∈ ls, l ∈ [2, 8, 12, 16]) ∧
      t.chunk.xs.length = 8 * ((ls.sum + 7) / 8)

/-- 10_state.md R22: `count` starts at 0, each successful APPEND adds exactly 1 to it, at MAX_SAMPLES an APPEND fails and
leaves it, no other instruction changes it but NEW, and it never exceeds MAX_SAMPLES. -/
def Obligations.CountNeverWraps : Prop :=
  (∀ (hint : BitVec 32) (s t : State), exec (.new hint) s = .next t → t.chunk.count = 0) ∧
  (∀ (a : BitVec 64) (s t : State), s.chunk.count.toNat ≤ s.config.maxSamples.toNat →
    exec (.append a) s = .next t → t.rsp.status = 0 → t.chunk.count.toNat = s.chunk.count.toNat + 1) ∧
  (∀ (a : BitVec 64) (s : State), s.chunk.phase = .opened → s.chunk.count = s.config.maxSamples →
    ∃ t, exec (.append a) s = .next t ∧ t.rsp.status = 5 ∧ t.chunk.count = s.chunk.count) ∧
  (∀ (i : Instr) (s t : State), exec i s = .next t →
    (∀ h, i ≠ .new h) → (∀ a, i ≠ .append a) → t.chunk.count = s.chunk.count) ∧
  (∀ s t : State, s.chunk.count.toNat ≤ s.config.maxSamples.toNat → step s = .next t →
    t.chunk.count.toNat ≤ t.config.maxSamples.toNat ∧ t.config.maxSamples.toNat ≤ 2 ^ 32 - 1)

/-- 10_state.md R23: prev_sign and prev_exp hold the sign and exponent of the sample appended last; they are 0 at chunk
start, and after it only APPEND writes them. -/
def Obligations.PrevFieldsFollowLastSample : Prop :=
  (∀ (hint : BitVec 32) (s t : State), exec (.new hint) s = .next t →
    t.chunk.prevSign = false ∧ t.chunk.prevExp = 0) ∧
  (∀ (a : BitVec 64) (s t : State), exec (.append a) s = .next t → t.rsp.status = 0 →
    t.chunk.prevSign = getSign s.config.shape (sampleOf s.config.shape a) ∧
    t.chunk.prevExp.toNat = getExp s.config.shape (sampleOf s.config.shape a) ∧
    t.chunk.prevExp.toNat < 2 ^ s.config.shape.expBits) ∧
  (∀ (i : Instr) (s t : State), exec i s = .next t → (∀ h, i ≠ .new h) → (∀ a, i ≠ .append a) →
    t.chunk.prevSign = s.chunk.prevSign ∧ t.chunk.prevExp = s.chunk.prevExp)

/-- 10_state.md R21: which commands change the phase, and how; and the encodings. -/
def Obligations.PhaseChanges : Prop :=
  (∀ (i : Instr) (s t : State), exec i s = .next t → t.chunk.phase ≠ s.chunk.phase →
    (∃ h, i = .new h ∧ t.chunk.phase = .opened) ∨
    (i = .finalize ∧ s.chunk.phase = .opened ∧ t.chunk.phase = .finalized) ∨
    (i = .serialize ∧ s.chunk.phase = .finalized ∧ (t.chunk.phase = .serialized ∧ t.rsp.status = 0 ∨
      t.chunk.phase = .failed ∧ t.rsp.status = 3))) ∧
  Phase.opened.code = 0 ∧ Phase.finalized.code = 1 ∧ Phase.serialized.code = 2 ∧ Phase.failed.code = 3

/-- 20_memory.md R51: NEW empties every stream, FINALIZE adds zero bits at the end, every other instruction keeps what is
there and adds at the end. -/
def Obligations.StreamsAreAppendOnly : Prop :=
  ∀ (i : Instr) (s t : State), exec i s = .next t →
    ((∃ h, i = .new h) → t.chunk.ss = [] ∧ t.chunk.xs = [] ∧ ∀ p ∈ t.chunk.ps, p = []) ∧
    (i = .finalize → t.rsp.status = 0 →
      ∃ a b : Nat, t.chunk.ss = s.chunk.ss ++ List.replicate a false ∧
        t.chunk.xs = s.chunk.xs ++ List.replicate b false ∧ t.chunk.ps.length = s.chunk.ps.length ∧
        ∀ j, ∃ c : Nat, t.chunk.ps.getD j [] = s.chunk.ps.getD j [] ++ List.replicate c false) ∧
    ((∀ h, i ≠ .new h) → s.chunk.ss <+: t.chunk.ss ∧ s.chunk.xs <+: t.chunk.xs ∧
      t.chunk.ps.length = s.chunk.ps.length ∧ ∀ j, s.chunk.ps.getD j [] <+: t.chunk.ps.getD j [])

/-! ## Bits, fields and exponents -/

/-- 00_scope.md R11: padding to a multiple of 8 with the fewest zeros, packing MSB first, and unpacking as its inverse. -/
def Obligations.PackPutsFirstBitHighest : Prop :=
  (∀ s : Bits, ∃ k : Nat, pad8 s = s ++ List.replicate k false ∧ (s.length + k) % 8 = 0 ∧
    ∀ k' : Nat, (s.length + k') % 8 = 0 → k ≤ k') ∧
  (∀ s : Bits, s.length % 8 = 0 →
    (pack s).length = s.length / 8 ∧ unpack (pack s) = s ∧
    ∀ j i : Nat, j < s.length / 8 → i < 8 → ((pack s).getD j 0).getLsbD (7 - i) = s.getD (8 * j + i) false) ∧
  (∀ bs : List Byte, pack (unpack bs) = bs)

/-- 40_float_fields.md sections 1 and 2 (R110 to R114): where the three fields lie in a sample, as bit slices and by the
masks, and that `from_parts` puts them there, each cut to its width. The positions are the spec's own addition: R110 says
that they are not in its source. -/
def Obligations.FieldPositions : Prop :=
  (∀ v : BitVec 64,
    getSign .f32 v = v.getLsbD 31 ∧ getExp .f32 v = (v.extractLsb' 23 8).toNat ∧
    getMantissa .f32 v = (v.extractLsb' 0 23).toNat ∧
    getSign .f64 v = v.getLsbD 63 ∧ getExp .f64 v = (v.extractLsb' 52 11).toNat ∧
    getMantissa .f64 v = (v.extractLsb' 0 52).toNat) ∧
  (∀ v : BitVec 64,
    (getSign .f32 v = true ↔ v &&& 0x80000000 ≠ 0) ∧ getExp .f32 v = ((v &&& 0x7F800000) >>> 23).toNat ∧
    getMantissa .f32 v = (v &&& 0x007FFFFF).toNat ∧
    (getSign .f64 v = true ↔ v &&& 0x8000000000000000 ≠ 0) ∧
    getExp .f64 v = ((v &&& 0x7FF0000000000000) >>> 52).toNat ∧
    getMantissa .f64 v = (v &&& 0x000FFFFFFFFFFFFF).toNat) ∧
  (∀ (s : Bool) (e m : Nat),
    fromParts .f32 s e m = (0#32 ++ (BitVec.ofBool s ++ BitVec.ofNat 8 e ++ BitVec.ofNat 23 m : BitVec 32) : BitVec 64) ∧
    fromParts .f64 s e m = (BitVec.ofBool s ++ BitVec.ofNat 11 e ++ BitVec.ofNat 52 m : BitVec 64))

/-- 40_float_fields.md R115. -/
def Obligations.FieldsRebuildTheSample : Prop :=
  ∀ (sh : Shape) (v : BitVec 64), v.toNat < 2 ^ sh.width →
    fromParts sh (getSign sh v) (getExp sh v) (getMantissa sh v) = v

/-- 40_float_fields.md R118. -/
def Obligations.ExponentDeltaIsInvertible : Prop :=
  ∀ (sh : Shape) (prev curr : Nat), prev < 2 ^ sh.expBits → curr < 2 ^ sh.expBits →
    expAdv sh prev (expDiff sh prev curr) = curr ∧
    -(2 ^ (sh.expBits - 1)) < expDiff sh prev curr ∧ expDiff sh prev curr ≤ 2 ^ (sh.expBits - 1)

/-- 40_float_fields.md R119: every delta has a codeword, the largest of F32 is 128, in BAND7, and the largest of F64 is
1024, in BAND10; so APPEND never ends in UNSUPPORTED_MAGNITUDE. -/
def Obligations.EveryDeltaHasACodeword : Prop :=
  (∀ (sh : Shape) (prev curr : Nat), (expDiff sh prev curr).natAbs ≤ 2 ^ (sh.expBits - 1) ∧
    (expDiff sh prev curr).natAbs ≤ 1024 ∧ ∃ c, vlcEncode (expDiff sh prev curr) = .ok c) ∧
  expDiff .f32 0 128 = 128 ∧ (codeword 128).take 4 = [true, true, true, false] ∧
  expDiff .f64 0 1024 = 1024 ∧ (codeword 1024).take 5 = [true, true, true, true, false] ∧
  (∀ (a : BitVec 64) (s t : State), exec (.append a) s = .next t → t.rsp.status ≠ 1)

/-! ## The code -/

/-- 41_varint_codec.md R138. -/
def Obligations.CodecRoundTrip : Prop :=
  (∀ v : Int, -1169 ≤ v → v ≤ 1169 → ∃ c, vlcEncode v = .ok c ∧
    ∀ rest : Bits, vlcDecode bitsRead1 (c ++ rest) = .ok (v, c.length) rest) ∧
  (∀ v : Int, 1170 ≤ v.natAbs → vlcEncode v = .error .unsupportedMagnitude)

/-- 41_varint_codec.md R139: concatenated codewords decode in order, and the reader stands just past the last one. -/
def Obligations.ConcatenatedCodewordsDecode : Prop :=
  ∀ (ds : List Int) (rest : Bits), (∀ d ∈ ds, -1169 ≤ d ∧ d ≤ 1169) →
    decodeMany bitsRead1 ds.length (codewords ds ++ rest) = .ok ds rest

/-- 30_encoding.md R92: every value in range has a codeword that decodes to it; decoding is into the range and encoding
gives the bits back, so no value has two codewords; and every bit string long enough that does not begin with the reserved prefix decodes. -/
def Obligations.CodeIsOneToOne : Prop :=
  (∀ v : Int, -1169 ≤ v → v ≤ 1169 → ∃ c, vlcEncode v = .ok c ∧ vlcDecode bitsRead1 c = .ok (v, c.length) []) ∧
  (∀ (bits rest : Bits) (v : Int) (L : Nat), vlcDecode bitsRead1 bits = .ok (v, L) rest →
    -1169 ≤ v ∧ v ≤ 1169 ∧ vlcEncode v = .ok (bits.take L) ∧ (bits.take L).length = L ∧ rest = bits.drop L) ∧
  (∀ bits : Bits, 16 ≤ bits.length → bits.take 5 ≠ [true, true, true, true, true] →
    ∃ v L rest, vlcDecode bitsRead1 bits = .ok (v, L) rest)

/-- 30_encoding.md R89: the length of a codeword from its first bits. -/
def Obligations.LengthFromFirstBits : Prop :=
  ∀ (v : Int) (c : Bits), vlcEncode v = .ok c →
    (c.take 2 ≠ [true, true] → c.length = 2) ∧
    (c.take 3 = [true, true, false] → c.length = 8) ∧
    (c.take 4 = [true, true, true, false] → c.length = 12) ∧
    (c.take 5 = [true, true, true, true, false] → c.length = 16) ∧
    c.take 5 ≠ [true, true, true, true, true] ∧ c.length ≤ 16

/-- 41_varint_codec.md R136, 30_encoding.md R90: after the fifth `1` decoding stops with CORRUPT_STREAM and has read nothing
more; no codeword begins with the prefix. -/
def Obligations.ReservedPrefixStopsDecoding : Prop :=
  (∀ rest : Bits, vlcDecode bitsRead1 (true :: true :: true :: true :: true :: rest) = .raised .corruptStream rest) ∧
  (∀ (v : Int) (c : Bits), vlcEncode v = .ok c → c.take 5 ≠ [true, true, true, true, true])

/-! ## VENC, VDEC and the codeword classes -/

/-- 41_varint_codec.md section 2 (VENC) with 30_encoding.md R83: for a value in range, OK, the codeword left-aligned in a
16-bit window with zeros below it, and its length; nothing else changes. -/
def Obligations.VencAnswersTheCodeword : Prop :=
  ∀ (v : BitVec 16) (s : State) (c : Bits), vlcEncode v.toInt = .ok c →
    ∃ w : BitVec 16, exec (.venc v) s =
        .next { s with rsp := answer 0 (w.setWidth 64) (BitVec.ofNat 5 c.length) s.chunk } ∧
      ∀ k : Nat, k < 16 → w.getLsbD (15 - k) = c.getD k false

/-- 60_exceptions.md R212: UNSUPPORTED_MAGNITUDE is raised by VENC for a magnitude of 1170 or more, with no bit emitted,
and through no other instruction. -/
def Obligations.UnsupportedMagnitudeOnlyFromVenc : Prop :=
  (∀ v : Int, 1170 ≤ v.natAbs → vlcEncode v = .error .unsupportedMagnitude) ∧
  (∀ (v : BitVec 16) (s : State), 1170 ≤ v.toInt.natAbs →
    exec (.venc v) s = .next { s with rsp := answer 1 0 0 s.chunk }) ∧
  (∀ (i : Instr) (s t : State), exec i s = .next t → t.rsp.status = 1 →
    ∃ v : BitVec 16, i = .venc v ∧ 1170 ≤ v.toInt.natAbs)

/-- 41_varint_codec.md section 2 (VDEC): a window whose valid bits begin with a whole codeword gives its value,
sign-extended, and its length; nothing else changes. -/
def Obligations.VdecAnswersTheValue : Prop :=
  ∀ (v : Int) (c : Bits) (w : BitVec 16) (a : BitVec 5) (s : State),
    vlcEncode v = .ok c → (∀ k, k < c.length → w.getLsbD (15 - k) = c.getD k false) →
    c.length ≤ a.toNat → a.toNat ≤ 16 →
    exec (.vdec w a) s = .next { s with rsp := answer 0 (BitVec.ofInt 64 v) (BitVec.ofNat 5 c.length) s.chunk }

/-- 41_varint_codec.md section 2 (VDEC), R136: the codeword needs more bits than are valid, or is reserved:
CORRUPT_STREAM; more than 16 valid bits: ILLEGAL_COMMAND. Nothing else changes. -/
def Obligations.VdecRefusals : Prop :=
  (∀ (v : Int) (c : Bits) (w : BitVec 16) (a : BitVec 5) (s : State),
    vlcEncode v = .ok c → (∀ k, k < c.length → w.getLsbD (15 - k) = c.getD k false) → a.toNat < c.length →
    exec (.vdec w a) s = .next { s with rsp := answer 2 0 0 s.chunk }) ∧
  (∀ (w : BitVec 16) (a : BitVec 5) (s : State), w &&& 0xF800 = 0xF800 → a.toNat ≤ 16 →
    exec (.vdec w a) s = .next { s with rsp := answer 2 0 0 s.chunk }) ∧
  (∀ (w : BitVec 16) (a : BitVec 5) (s : State), 16 < a.toNat →
    exec (.vdec w a) s = .next { s with rsp := answer 6 0 0 s.chunk })

/-- 41_varint_codec.md section 2 (VDEC, corner cases): a window bit at position AVAIL or later is never read. -/
def Obligations.VdecIgnoresInvalidBits : Prop :=
  ∀ (w w' : BitVec 16) (a : BitVec 5) (s : State),
    (∀ k, k < a.toNat → w.getLsbD (15 - k) = w'.getLsbD (15 - k)) → exec (.vdec w a) s = exec (.vdec w' a) s

/-- 30_encoding.md section 2 with 41_varint_codec.md section 1: the answer of each codeword class, the sign bit set for a
negative value. That the answer stands in the response is the model's reading (DEDUCED, log 3). -/
def Obligations.CodewordClassAnswers : Prop :=
  ∀ s : State,
    exec .zero s = .next { s with rsp := answer 0 0 2 s.chunk } ∧
    exec .plus1 s = .next { s with rsp := answer 0 1 2 s.chunk } ∧
    exec .minus1 s = .next { s with rsp := answer 0 0xFFFFFFFFFFFFFFFF 2 s.chunk } ∧
    (∀ (o : BitVec 4), exec (.band4 false o) s = .next { s with rsp := answer 0 (2 + o.setWidth 64) 8 s.chunk } ∧
      exec (.band4 true o) s = .next { s with rsp := answer 0 (-(2 + o.setWidth 64)) 8 s.chunk }) ∧
    (∀ (o : BitVec 7), exec (.band7 false o) s = .next { s with rsp := answer 0 (18 + o.setWidth 64) 12 s.chunk } ∧
      exec (.band7 true o) s = .next { s with rsp := answer 0 (-(18 + o.setWidth 64)) 12 s.chunk }) ∧
    (∀ (o : BitVec 10), exec (.band10 false o) s = .next { s with rsp := answer 0 (146 + o.setWidth 64) 16 s.chunk } ∧
      exec (.band10 true o) s = .next { s with rsp := answer 0 (-(146 + o.setWidth 64)) 16 s.chunk }) ∧
    exec .reserved s = .next { s with rsp := answer 2 0 0 s.chunk }

/-- 30_encoding.md R91 with 41_varint_codec.md section 2: VDEC of a whole window answers as the codeword class that the
window decodes to, and so does the step that runs a window laid for it (log 3). -/
def Obligations.VdecRunsTheCodewordClass : Prop :=
  (∀ (w : BitVec 16) (s : State), exec (.vdec w 16) s = exec (decodeWindow w) s) ∧
  (∀ (s : State) (w : Nat),
    step (s.withFetchWord 16 w) = exec (decodeWindow (BitVec.ofNat 16 w))
      { s with cmd := 7, argA := (BitVec.ofNat 16 w).setWidth 64, argB := 16, out := [] })

/-- 10_state.md R20, 20_memory.md R62, 43_chunk_decoder.md R190: DESERIALIZE, VENC, VDEC and the codeword classes keep the
chunk and neither read it: with another chunk they do the same, but for the copies of phase and count. -/
def Obligations.ChunkIsInvisibleToDecoderAndCodec : Prop :=
  ∀ (i : Instr) (s t : State) (k : Chunk),
    (i = .deserialize ∨ (∃ v, i = .venc v) ∨ (∃ w a, i = .vdec w a) ∨ i.isCodeword = true) → exec i s = .next t →
    t.chunk = s.chunk ∧
    exec i { s with chunk := k } =
      .next { t with chunk := k, rsp := { t.rsp with phase := k.phase.code, count := k.count } }

/-! ## The chunk encoder -/

/-- 42_chunk_encoder.md R160, R161: NEW, in every phase and for every hint. -/
def Obligations.NewStartsAnEmptyChunk : Prop :=
  (∀ (a : BitVec 64) (b : BitVec 8), decode (.command ⟨1, a, b⟩) = .ok (.new (a.extractLsb' 0 32))) ∧
  (∀ (hint : BitVec 32) (s : State), exec (.new hint) s = .next
    { s with
      chunk := ⟨.opened, 0, false, 0, [], [], List.replicate s.config.shape.mantBits []⟩
      rsp := ⟨0, 0, 0, 0, 0⟩ })

/-- 42_chunk_encoder.md R165: the stream writes of APPEND, with the new prev_sign, prev_exp and count, and the frame. The
codeword of the delta exists by R119. -/
def Obligations.AppendTransposesTheSample : Prop :=
  ∀ (a : BitVec 64) (s : State), s.chunk.phase = .opened → s.chunk.count ≠ s.config.maxSamples →
    ∃ c : Bits,
      vlcEncode (expDiff s.config.shape s.chunk.prevExp.toNat
        (getExp s.config.shape (sampleOf s.config.shape a))) = .ok c ∧ c.length ∈ [2, 8, 12, 16] ∧
      exec (.append a) s = .next
        { s with
          chunk :=
            { phase := .opened
              count := s.chunk.count + 1
              prevSign := getSign s.config.shape (sampleOf s.config.shape a)
              prevExp := BitVec.ofNat 11 (getExp s.config.shape (sampleOf s.config.shape a))
              ss := s.chunk.ss ++ [getSign s.config.shape (sampleOf s.config.shape a) ^^ s.chunk.prevSign]
              xs := s.chunk.xs ++ c
              ps := s.chunk.ps.mapIdx fun i p => p ++
                [((getMantissa s.config.shape (sampleOf s.config.shape a)).testBit i == false) ^^
                  (getExp s.config.shape (sampleOf s.config.shape a) % 2 == 0)] }
          rsp := ⟨0, 0, BitVec.ofNat 5 c.length, 0, s.chunk.count + 1⟩ }

/-- 30_encoding.md R82: under F32 APPEND ignores `ARG_A[63:32]`; under either shape it reads `ARG_A[W-1:0]` as it stands. -/
def Obligations.AppendReadsTheLowBitsOnly : Prop :=
  (∀ (a b : BitVec 64) (s : State), s.config.shape = .f32 → a.extractLsb' 0 32 = b.extractLsb' 0 32 →
    exec (.append a) s = exec (.append b) s) ∧
  (∀ a : BitVec 64, sampleOf .f32 a = (a.extractLsb' 0 32).setWidth 64 ∧ sampleOf .f64 a = a)

/-- 42_chunk_encoder.md R164: APPEND's checks in their order; either error leaves every state element unchanged. -/
def Obligations.AppendChecksPhaseThenCount : Prop :=
  ∀ (a : BitVec 64) (s : State),
    (s.chunk.phase ≠ .opened → exec (.append a) s = .next { s with rsp := answer 4 0 0 s.chunk }) ∧
    (s.chunk.phase = .opened → s.chunk.count = s.config.maxSamples →
      exec (.append a) s = .next { s with rsp := answer 5 0 0 s.chunk })

/-- 42_chunk_encoder.md R167: the plane bit is the mantissa bit, flipped when the raw exponent is odd. -/
def Obligations.PlaneBitIsFlippedByOddExponent : Prop :=
  (∀ m e i : Nat, planeBit m e i = (m.testBit i ^^ e.testBit 0)) ∧
  (∀ (a : BitVec 64) (s t : State) (i : Nat), exec (.append a) s = .next t → t.rsp.status = 0 →
    i < s.chunk.ps.length →
    t.chunk.ps.getD i [] = s.chunk.ps.getD i [] ++
      [(getMantissa s.config.shape (sampleOf s.config.shape a)).testBit i ^^
        (getExp s.config.shape (sampleOf s.config.shape a)).testBit 0])

/-- 42_chunk_encoder.md R166 and R168, with R167: after NEW and `n` APPENDs the sign stream and the exponent stream are
those of the samples, and so is every plane. -/
def Obligations.StreamsAfterAppends : Prop :=
  ∀ (s : State) (hint : BitVec 32) (vs : List (BitVec 64)),
    AllOfWidth s.config.shape vs → vs.length ≤ s.config.maxSamples.toNat →
    ∃ t, runAll (.new hint :: vs.map .append) s = .next t ∧
      t.chunk.ss.length = vs.length ∧
      (∀ k, k < vs.length → t.chunk.ss.getD k false =
        ((if k = 0 then false else getSign s.config.shape (vs.getD (k - 1) 0)) ^^
          getSign s.config.shape (vs.getD k 0))) ∧
      t.chunk.xs = (List.range vs.length).flatMap (fun k => codeword (expDiff s.config.shape
        (if k = 0 then 0 else getExp s.config.shape (vs.getD (k - 1) 0)) (getExp s.config.shape (vs.getD k 0)))) ∧
      t.chunk.ps = (List.range s.config.shape.mantBits).map (fun i => planeStream s.config.shape vs i)

/-- 42_chunk_encoder.md section 3 (FINALIZE): in phase OPEN, zero bits up to the next multiple of 8 in each stream on its
own, phase FINALIZED, and nothing else. -/
def Obligations.FinalizeAlignsEveryStream : Prop :=
  ∀ s : State, s.chunk.phase = .opened →
    exec .finalize s = .next
      { s with
        chunk :=
          { s.chunk with
            phase := .finalized
            ss := s.chunk.ss ++ List.replicate (8 * ((s.chunk.ss.length + 7) / 8) - s.chunk.ss.length) false
            xs := s.chunk.xs ++ List.replicate (8 * ((s.chunk.xs.length + 7) / 8) - s.chunk.xs.length) false
            ps := s.chunk.ps.map fun p => p ++ List.replicate (8 * ((p.length + 7) / 8) - p.length) false }
        rsp := ⟨0, 0, 0, 1, s.chunk.count⟩ }

/-- 42_chunk_encoder.md section 4 (SERIALIZE), R175, with 20_memory.md R54: in phase FINALIZED, with a sink that takes every
byte, the count big-endian and then each stream, in order; phase SERIALIZED, and nothing else. -/
def Obligations.SerializeEmitsTheStreams : Prop :=
  ∀ (s : State) (bs : List Byte), s.chunk.phase = .finalized →
    bs = [s.chunk.count.extractLsb' 24 8, s.chunk.count.extractLsb' 16 8, s.chunk.count.extractLsb' 8 8,
        s.chunk.count.extractLsb' 0 8] ++ pack s.chunk.ss ++ pack s.chunk.xs ++ s.chunk.ps.flatMap pack →
    (∀ a ∈ s.sinkAnswers.take bs.length, a = .ok) →
    exec .serialize s = .next
      { s with
        chunk := { s.chunk with phase := .serialized }
        rsp := ⟨0, BitVec.ofNat 64 bs.length, 0, 2, s.chunk.count⟩
        out := s.out ++ bs
        sinkStore := s.sinkStore ++ bs
        sinkAnswers := s.sinkAnswers.drop bs.length }

/-- 42_chunk_encoder.md R177: the sink fails on the byte at container offset `j`. Only NEW leaves phase FAILED, by
`PhaseChanges`, which the last clause says again for this phase. -/
def Obligations.SerializeStopsAtTheFailingByte : Prop :=
  (∀ (s : State) (bs : List Byte) (j : Nat) (later : List SinkAnswer), s.chunk.phase = .finalized →
    bs = s.chunk.bytes → j < bs.length → s.sinkAnswers = List.replicate j .ok ++ .fail :: later →
    exec .serialize s = .next
      { s with
        chunk := { s.chunk with phase := .failed }
        rsp := ⟨3, BitVec.ofNat 64 j, 0, 3, s.chunk.count⟩
        out := s.out ++ bs.take j
        sinkStore := s.sinkStore ++ bs.take j
        sinkAnswers := later }) ∧
  (∀ (i : Instr) (s t : State), exec i s = .next t → s.chunk.phase = .failed → t.chunk.phase ≠ .failed →
    ∃ h, i = .new h)

/-- 42_chunk_encoder.md R171 and R176: FINALIZE outside OPEN and SERIALIZE outside FINALIZED end in SEQUENCE_ERROR, emit no
byte and change no state. -/
def Obligations.OutOfPhaseCommandsAreRefused : Prop :=
  ∀ s : State,
    (s.chunk.phase ≠ .opened → exec .finalize s = .next { s with rsp := answer 4 0 0 s.chunk }) ∧
    (s.chunk.phase ≠ .finalized → exec .serialize s = .next { s with rsp := answer 4 0 0 s.chunk })

/-- 42_chunk_encoder.md R178: what NEW, APPENDs, FINALIZE and SERIALIZE emit. -/
def Obligations.ContainerLaw : Prop :=
  ∀ (s : State) (hint : BitVec 32) (vs : List (BitVec 64)),
    AllOfWidth s.config.shape vs → vs.length ≤ s.config.maxSamples.toNat →
    (∀ a ∈ s.sinkAnswers.take (container s.config.shape vs).length, a = .ok) →
    ∃ t, runAll (encodeProgram hint vs) s = .next t ∧
      t.out = s.out ++ container s.config.shape vs ∧
      t.sinkStore = s.sinkStore ++ container s.config.shape vs ∧
      t.rsp = ⟨0, BitVec.ofNat 64 (container s.config.shape vs).length, 0, 2, BitVec.ofNat 32 vs.length⟩ ∧
      t.chunk.phase = .serialized ∧ t.chunk.count = BitVec.ofNat 32 vs.length ∧
      t.input = s.input ∧ t.samplesOut = s.samplesOut

/-- 20_memory.md R55: the length of a container, and the empty one. -/
def Obligations.ContainerLength : Prop :=
  ∀ (sh : Shape) (vs : List (BitVec 64)),
    (container sh vs).length = 4 + (vs.length + 7) / 8 + ((codewords (deltas sh vs)).length + 7) / 8
      + sh.mantBits * ((vs.length + 7) / 8) ∧
    (vs.length = 0 → container sh vs = [0x00, 0x00, 0x00, 0x00])

/-! ## The chunk decoder -/

/-- 43_chunk_decoder.md sections 1 and 2 (R190, R192 to R195, R197, R198, R201): a whole container at the front of IN
is decoded to the samples of its layout, whatever its pad bits and deltas; exactly its bytes are taken; nothing else
changes. -/
def Obligations.DeserializeDecodesEveryLayout : Prop :=
  ∀ (s : State) (L : Layout) (rest : List InItem),
    L.Fits s.config.shape → L.n ≤ s.config.maxSamples.toNat → s.input = itemsOf L.bytes ++ rest →
    exec .deserialize s = .next
      { s with
        input := rest
        samplesOut := L.samples s.config.shape
        rsp := answer 0 (BitVec.ofNat 64 L.n) 0 s.chunk }

/-- 43_chunk_decoder.md R200: bit-exact round trip of a whole chunk. -/
def Obligations.ChunkRoundTrip : Prop :=
  ∀ (s t u : State) (hint : BitVec 32) (vs : List (BitVec 64)),
    AllOfWidth s.config.shape vs → vs.length ≤ s.config.maxSamples.toNat → s.out = [] →
    runAll (encodeProgram hint vs) s = .next t → t.rsp.status = 0 →
    u.config = s.config → u.input = itemsOf t.out →
    exec .deserialize u = .next
      { u with
        input := []
        samplesOut := vs
        rsp := answer 0 (BitVec.ofNat 64 vs.length) 0 u.chunk }

/-- 43_chunk_decoder.md R191: a container cut short ends in CORRUPT_STREAM with everything taken; one interrupted by a
failing item ends in IO_FAILURE with that item taken and no further one. -/
def Obligations.TruncatedContainerIsCorrupt : Prop :=
  ∀ (s : State) (L : Layout) (k : Nat),
    L.Fits s.config.shape → L.n ≤ s.config.maxSamples.toNat → k < L.bytes.length →
    (s.input = itemsOf (L.bytes.take k) →
      exec .deserialize s = .next { s with input := [], rsp := answer 2 0 0 s.chunk }) ∧
    (∀ rest, s.input = itemsOf (L.bytes.take k) ++ .fail :: rest →
      exec .deserialize s = .next { s with input := rest, rsp := answer 3 0 0 s.chunk })

/-- 43_chunk_decoder.md R192: a count above MAX_SAMPLES ends in COUNT_OVERFLOW straight after the four bytes; with the
default limit this never happens. -/
def Obligations.CountFieldAboveTheLimit : Prop :=
  (∀ (s : State) (c0 c1 c2 c3 : Byte) (rest : List InItem),
    s.input = .byte c0 :: .byte c1 :: .byte c2 :: .byte c3 :: rest →
    s.config.maxSamples.toNat < c0.toNat * 2 ^ 24 + c1.toNat * 2 ^ 16 + c2.toNat * 2 ^ 8 + c3.toNat →
    exec .deserialize s = .next { s with input := rest, rsp := answer 5 0 0 s.chunk }) ∧
  (∀ s t : State, s.config.maxSamples.toNat = 2 ^ 32 - 1 → exec .deserialize s = .next t → t.rsp.status ≠ 5)

/-- 43_chunk_decoder.md section 1 with 41_varint_codec.md R136: a reserved prefix in the exponent stream ends in
CORRUPT_STREAM, with the byte that holds its fifth bit taken and no further item. -/
def Obligations.ReservedPrefixInExponentStream : Prop :=
  ∀ (s : State) (n : Nat) (sb : Bits) (ds : List Int) (tail : Bits) (rest : List InItem),
    n < 2 ^ 32 → n ≤ s.config.maxSamples.toNat → sb.length = 8 * ((n + 7) / 8) → ds.length < n →
    (∀ d ∈ ds, InVlcRange d) → tail.length < 8 → ((codewords ds).length + 5 + tail.length) % 8 = 0 →
    s.input = itemsOf (be32 (BitVec.ofNat 32 n) ++ pack sb ++
      pack (codewords ds ++ [true, true, true, true, true] ++ tail)) ++ rest →
    exec .deserialize s = .next { s with input := rest, rsp := answer 2 0 0 s.chunk }

/-- 43_chunk_decoder.md R196 (its parts on success, on IO_FAILURE and on COUNT_OVERFLOW, and that what is left in IN is
untouched): what a DESERIALIZE takes, and that what follows does not matter. On success it is a container, bit for bit: the
count, the codewords and the planes of the samples delivered. -/
def Obligations.DeserializeTakesExactlyTheContainer : Prop :=
  ∀ s t : State, exec .deserialize s = .next t →
    ∃ taken : List InItem, s.input = taken ++ t.input ∧
      (t.rsp.status = 0 → .fail ∉ taken ∧ ∃ L : Layout, L.Fits s.config.shape ∧
        L.n ≤ s.config.maxSamples.toNat ∧ taken = itemsOf L.bytes ∧
        t.rsp.data = BitVec.ofNat 64 L.n ∧ t.samplesOut = L.samples s.config.shape ∧
        taken.length = 4 + (L.n + 7) / 8 + ((codewords L.ds).length + 7) / 8
          + s.config.shape.mantBits * ((L.n + 7) / 8)) ∧
      (t.rsp.status = 2 → .fail ∉ taken) ∧
      (t.rsp.status = 3 → ∃ front, taken = front ++ [.fail] ∧ .fail ∉ front) ∧
      (t.rsp.status = 5 → taken.length = 4 ∧ .fail ∉ taken) ∧
      (t.rsp.status ≠ 2 ∨ t.input ≠ [] → ∀ rest : List InItem,
        exec .deserialize { s with input := taken ++ rest } = .next { t with input := rest })

/-- 43_chunk_decoder.md R199: the outcome on an error. -/
def Obligations.FailedDeserializeDeliversNothing : Prop :=
  ∀ s t : State, exec .deserialize s = .next t → t.rsp.status ≠ 0 →
    t = { s with input := t.input, rsp := answer t.rsp.status 0 0 s.chunk }

/-! ## Statuses and frames -/

/-- 60_exceptions.md R219 with the codes of R210: the command with code `op` ends in no status but those of its row, and
each of them can occur. -/
def Obligations.StatusTable : Prop :=
  (∀ s t : State, issueCommand s = .next t →
    ∃ k ∈ statusTable (s.cmd.extractLsb' 0 4).toNat, t.rsp.status = k.code) ∧
  (∀ op : Nat, op < 16 → ∀ k ∈ statusTable op, ∃ s t : State,
    (s.cmd.extractLsb' 0 4).toNat = op ∧ issueCommand s = .next t ∧ t.rsp.status = k.code) ∧
  Status.ok.code = 0 ∧ Status.unsupportedMagnitude.code = 1 ∧ Status.corruptStream.code = 2 ∧
  Status.ioFailure.code = 3 ∧ Status.sequenceError.code = 4 ∧ Status.countOverflow.code = 5 ∧
  Status.illegalCommand.code = 6

/-- 20_memory.md R61, 60_exceptions.md R221: an error of an instruction other than SERIALIZE and DESERIALIZE changes the
response registers alone; an error of SERIALIZE other than IO_FAILURE likewise. -/
def Obligations.ErrorsArePrecise : Prop :=
  ∀ (i : Instr) (s t : State), exec i s = .next t → t.rsp.status ≠ 0 → i ≠ .deserialize →
    (i = .serialize → t.rsp.status ≠ 3) →
    t = { s with rsp := answer t.rsp.status 0 0 s.chunk }

/-- 10_state.md R31, 42_chunk_encoder.md R169: only SERIALIZE writes OUT, only DESERIALIZE takes from IN and writes
SAMPLES_OUT; every other instruction keeps every channel. -/
def Obligations.OnlyTwoCommandsMoveItems : Prop :=
  ∀ (i : Instr) (s t : State), exec i s = .next t →
    (i ≠ .serialize → i ≠ .deserialize → KeepsChannels s t) ∧
    (i = .serialize → t.input = s.input ∧ t.samplesOut = s.samplesOut) ∧
    (i = .deserialize → t.out = s.out ∧ t.sinkAnswers = s.sinkAnswers ∧ t.sinkStore = s.sinkStore)
end

