-- ==== Sys2Proof/Laws/Bits.lean ====
section
/-! SUPPORT. The small lemmas of bit sequences, padding and packing, and the lengths of codewords. -/

namespace Sys2Proof.Machine

@[simp] theorem bitsN_length (n u : Nat) : (bitsN n u).length = n := by
  induction n with
  | zero => rfl
  | succ n ih => simp [bitsN, ih]

theorem bitsN_getElem (n u k : Nat) (h : k < (bitsN n u).length) : (bitsN n u)[k] = u.testBit (n - 1 - k) := by
  induction n generalizing k with
  | zero => simp [bitsN] at h
  | succ n ih =>
    cases k with
    | zero => simp [bitsN]
    | succ k =>
      have h' : k < (bitsN n u).length := by simpa [bitsN] using h
      have e : n - 1 - k = n - (k + 1) := by omega
      simp [bitsN, ih k h', e]

@[simp] theorem unpackByte_length (b : Byte) : (unpackByte b).length = 8 := bitsN_length 8 _

@[simp] theorem unpack_nil : unpack [] = [] := rfl

@[simp] theorem unpack_cons (b : Byte) (bs : List Byte) : unpack (b :: bs) = unpackByte b ++ unpack bs := rfl

@[simp] theorem unpack_length (bs : List Byte) : (unpack bs).length = 8 * bs.length := by
  induction bs with
  | nil => rfl
  | cons b bs ih => simp [ih]; omega

@[simp] theorem be32_length (n : BitVec 32) : (be32 n).length = 4 := rfl

theorem padCount_lt (n : Nat) : padCount n < 8 := Nat.mod_lt _ (by decide)

/-- The padded length is the length rounded up to a multiple of 8 (20_memory.md R56). -/
theorem add_padCount (n : Nat) : n + padCount n = 8 * ceilDiv8 n := by
  simp only [padCount, ceilDiv8]; omega

@[simp] theorem pad8_length (s : Bits) : (pad8 s).length = 8 * ceilDiv8 s.length := by
  simp [pad8, add_padCount]

@[simp] theorem pad8_nil : pad8 [] = [] := rfl

/-- One byte off the front of a packed sequence. -/
theorem pack_of_eight (b7 b6 b5 b4 b3 b2 b1 b0 : Bool) (rest : Bits) :
    pack (b7 :: b6 :: b5 :: b4 :: b3 :: b2 :: b1 :: b0 :: rest) = byteOfBits b7 b6 b5 b4 b3 b2 b1 b0 :: pack rest := rfl

theorem byteOfBits_unpackByte :
    ∀ b7 b6 b5 b4 b3 b2 b1 b0 : Bool,
      unpackByte (byteOfBits b7 b6 b5 b4 b3 b2 b1 b0) = [b7, b6, b5, b4, b3, b2, b1, b0] := by
  decide

/-- A codeword has one of four lengths, and its value is in range (30_encoding.md R85). -/
theorem vlcEncode_ok {v : Int} {c : Bits} (h : vlcEncode v = .ok c) :
    v.natAbs ≤ 1169 ∧ (c.length = 2 ∨ c.length = 8 ∨ c.length = 12 ∨ c.length = 16) := by
  unfold vlcEncode at h
  split at h
  · cases h; simp_all
  split at h
  · cases h; simp_all
  split at h
  · cases h; simp_all
  dsimp only at h
  split at h
  · cases h; exact ⟨by omega, by simp⟩
  split at h
  · cases h; exact ⟨by omega, by simp⟩
  split at h
  · cases h; exact ⟨by assumption, by simp⟩
  · cases h

/-- The codec raises one status alone (41_varint_codec.md R130). -/
theorem vlcEncode_error {v : Int} {k : Status} (h : vlcEncode v = .error k) :
    k = .unsupportedMagnitude ∧ 1170 ≤ v.natAbs := by
  unfold vlcEncode at h
  split at h
  · cases h
  split at h
  · cases h
  split at h
  · cases h
  dsimp only at h
  split at h
  · cases h
  split at h
  · cases h
  split at h
  · cases h
  · cases h; exact ⟨rfl, by omega⟩

end Sys2Proof.Machine
end

