-- ==== Sys2Proof/Laws/State.lean ====
section
/-! SUPPORT. One lemma per field per update of the state and of the chunk, each true by rfl and tagged @[simp], so that no
later proof unfolds a record update. -/

namespace Sys2Proof.Machine

/-! ## respond and raise (10_state.md R30) -/

@[simp] theorem respond_config (k : Status) (data : BitVec 64) (len : BitVec 5) (s : State) :
    (respond k data len s).config = s.config := rfl

@[simp] theorem respond_chunk (k : Status) (data : BitVec 64) (len : BitVec 5) (s : State) :
    (respond k data len s).chunk = s.chunk := rfl

@[simp] theorem respond_cmd (k : Status) (data : BitVec 64) (len : BitVec 5) (s : State) :
    (respond k data len s).cmd = s.cmd := rfl

@[simp] theorem respond_argA (k : Status) (data : BitVec 64) (len : BitVec 5) (s : State) :
    (respond k data len s).argA = s.argA := rfl

@[simp] theorem respond_argB (k : Status) (data : BitVec 64) (len : BitVec 5) (s : State) :
    (respond k data len s).argB = s.argB := rfl

@[simp] theorem respond_rsp (k : Status) (data : BitVec 64) (len : BitVec 5) (s : State) :
    (respond k data len s).rsp = ⟨k.code, data, len, s.chunk.phase.code, s.chunk.count⟩ := rfl

@[simp] theorem respond_out (k : Status) (data : BitVec 64) (len : BitVec 5) (s : State) :
    (respond k data len s).out = s.out := rfl

@[simp] theorem respond_input (k : Status) (data : BitVec 64) (len : BitVec 5) (s : State) :
    (respond k data len s).input = s.input := rfl

@[simp] theorem respond_samplesOut (k : Status) (data : BitVec 64) (len : BitVec 5) (s : State) :
    (respond k data len s).samplesOut = s.samplesOut := rfl

@[simp] theorem respond_sinkAnswers (k : Status) (data : BitVec 64) (len : BitVec 5) (s : State) :
    (respond k data len s).sinkAnswers = s.sinkAnswers := rfl

@[simp] theorem respond_sinkStore (k : Status) (data : BitVec 64) (len : BitVec 5) (s : State) :
    (respond k data len s).sinkStore = s.sinkStore := rfl

@[simp] theorem respond_actions (k : Status) (data : BitVec 64) (len : BitVec 5) (s : State) :
    (respond k data len s).actions = s.actions := rfl

@[simp] theorem raiseStatus_eq_respond (k : Status) (data : BitVec 64) (s : State) :
    raiseStatus k data s = respond k data 0#5 s := rfl

@[simp] theorem illegalCommand_eq_respond (s : State) : illegalCommand s = respond .illegalCommand 0#64 0#5 s := rfl

@[simp] theorem respondValue_eq_respond (v : Int) (len : Nat) (s : State) :
    respondValue v len s = respond .ok (sext64 v) (BitVec.ofNat 5 len) s := rfl

/-! ## The start of a command -/

@[simp] theorem beginCommand_config (s : State) : (beginCommand s).config = s.config := rfl

@[simp] theorem beginCommand_chunk (s : State) : (beginCommand s).chunk = s.chunk := rfl

@[simp] theorem beginCommand_cmd (s : State) : (beginCommand s).cmd = s.cmd := rfl

@[simp] theorem beginCommand_argA (s : State) : (beginCommand s).argA = s.argA := rfl

@[simp] theorem beginCommand_argB (s : State) : (beginCommand s).argB = s.argB := rfl

@[simp] theorem beginCommand_rsp (s : State) : (beginCommand s).rsp = s.rsp := rfl

@[simp] theorem beginCommand_out (s : State) : (beginCommand s).out = [] := rfl

@[simp] theorem beginCommand_input (s : State) : (beginCommand s).input = s.input := rfl

@[simp] theorem beginCommand_samplesOut (s : State) : (beginCommand s).samplesOut = s.samplesOut := rfl

@[simp] theorem beginCommand_sinkAnswers (s : State) : (beginCommand s).sinkAnswers = s.sinkAnswers := rfl

@[simp] theorem beginCommand_sinkStore (s : State) : (beginCommand s).sinkStore = s.sinkStore := rfl

@[simp] theorem beginCommand_actions (s : State) : (beginCommand s).actions = s.actions := rfl

/-! ## The reset event (70_reset_and_hazards.md R240) -/

@[simp] theorem resetEvent_config (s : State) : (resetEvent s).config = s.config := rfl

@[simp] theorem resetEvent_chunk (s : State) : (resetEvent s).chunk = Chunk.fresh s.config.shape := rfl

@[simp] theorem resetEvent_cmd (s : State) : (resetEvent s).cmd = 0#32 := rfl

@[simp] theorem resetEvent_argA (s : State) : (resetEvent s).argA = 0#64 := rfl

@[simp] theorem resetEvent_argB (s : State) : (resetEvent s).argB = 0#8 := rfl

@[simp] theorem resetEvent_rsp (s : State) : (resetEvent s).rsp = Response.cleared := rfl

@[simp] theorem resetEvent_out (s : State) : (resetEvent s).out = [] := rfl

@[simp] theorem resetEvent_input (s : State) : (resetEvent s).input = s.input := rfl

@[simp] theorem resetEvent_samplesOut (s : State) : (resetEvent s).samplesOut = [] := rfl

@[simp] theorem resetEvent_sinkAnswers (s : State) : (resetEvent s).sinkAnswers = s.sinkAnswers := rfl

@[simp] theorem resetEvent_sinkStore (s : State) : (resetEvent s).sinkStore = s.sinkStore := rfl

@[simp] theorem resetEvent_actions (s : State) : (resetEvent s).actions = s.actions := rfl

/-! ## The reset state of an instance (10_state.md R37) -/

@[simp] theorem resetFor_config (cfg : Config) : (State.resetFor cfg).config = cfg := rfl

@[simp] theorem resetFor_chunk (cfg : Config) : (State.resetFor cfg).chunk = Chunk.fresh cfg.shape := rfl

@[simp] theorem resetFor_cmd (cfg : Config) : (State.resetFor cfg).cmd = 0#32 := rfl

@[simp] theorem resetFor_argA (cfg : Config) : (State.resetFor cfg).argA = 0#64 := rfl

@[simp] theorem resetFor_argB (cfg : Config) : (State.resetFor cfg).argB = 0#8 := rfl

@[simp] theorem resetFor_rsp (cfg : Config) : (State.resetFor cfg).rsp = Response.cleared := rfl

@[simp] theorem resetFor_out (cfg : Config) : (State.resetFor cfg).out = [] := rfl

@[simp] theorem resetFor_input (cfg : Config) : (State.resetFor cfg).input = [] := rfl

@[simp] theorem resetFor_samplesOut (cfg : Config) : (State.resetFor cfg).samplesOut = [] := rfl

@[simp] theorem resetFor_sinkAnswers (cfg : Config) : (State.resetFor cfg).sinkAnswers = [] := rfl

@[simp] theorem resetFor_sinkStore (cfg : Config) : (State.resetFor cfg).sinkStore = [] := rfl

@[simp] theorem resetFor_actions (cfg : Config) : (State.resetFor cfg).actions = [] := rfl

/-! ## An abandoned command (70_reset_and_hazards.md R241) -/

@[simp] theorem abandon_config (m : Nat) (s t : State) :
    (abandon m s t).config = s.config := rfl

@[simp] theorem abandon_chunk (m : Nat) (s t : State) :
    (abandon m s t).chunk = s.chunk := rfl

@[simp] theorem abandon_cmd (m : Nat) (s t : State) :
    (abandon m s t).cmd = s.cmd := rfl

@[simp] theorem abandon_argA (m : Nat) (s t : State) :
    (abandon m s t).argA = s.argA := rfl

@[simp] theorem abandon_argB (m : Nat) (s t : State) :
    (abandon m s t).argB = s.argB := rfl

@[simp] theorem abandon_rsp (m : Nat) (s t : State) :
    (abandon m s t).rsp = s.rsp := rfl

@[simp] theorem abandon_out (m : Nat) (s t : State) :
    (abandon m s t).out = s.out := rfl

@[simp] theorem abandon_input (m : Nat) (s t : State) :
    (abandon m s t).input = s.input.drop (min m (s.input.length - t.input.length)) := rfl

@[simp] theorem abandon_samplesOut (m : Nat) (s t : State) :
    (abandon m s t).samplesOut = s.samplesOut := rfl

@[simp] theorem abandon_sinkAnswers (m : Nat) (s t : State) :
    (abandon m s t).sinkAnswers = s.sinkAnswers.drop (min m (s.sinkAnswers.length - t.sinkAnswers.length)) := rfl

@[simp] theorem abandon_sinkStore (m : Nat) (s t : State) :
    (abandon m s t).sinkStore = s.sinkStore ++ t.out.take m := rfl

@[simp] theorem abandon_actions (m : Nat) (s t : State) :
    (abandon m s t).actions = s.actions := rfl

/-! ## The chunk -/

@[simp] theorem fresh_phase (sh : Shape) : (Chunk.fresh sh).phase = .opened := rfl

@[simp] theorem fresh_count (sh : Shape) : (Chunk.fresh sh).count = 0#32 := rfl

@[simp] theorem fresh_prevSign (sh : Shape) : (Chunk.fresh sh).prevSign = false := rfl

@[simp] theorem fresh_prevExp (sh : Shape) : (Chunk.fresh sh).prevExp = 0#11 := rfl

@[simp] theorem fresh_ss (sh : Shape) : (Chunk.fresh sh).ss = [] := rfl

@[simp] theorem fresh_xs (sh : Shape) : (Chunk.fresh sh).xs = [] := rfl

@[simp] theorem fresh_ps (sh : Shape) : (Chunk.fresh sh).ps = List.replicate sh.mantBits [] := rfl

@[simp] theorem push_phase (sh : Shape) (v : BitVec 64) (c : Bits) (k : Chunk) :
    (k.push sh v c).phase = k.phase := rfl

@[simp] theorem push_count (sh : Shape) (v : BitVec 64) (c : Bits) (k : Chunk) :
    (k.push sh v c).count = k.count + 1#32 := rfl

@[simp] theorem push_prevSign (sh : Shape) (v : BitVec 64) (c : Bits) (k : Chunk) :
    (k.push sh v c).prevSign = getSign sh v := rfl

@[simp] theorem push_prevExp (sh : Shape) (v : BitVec 64) (c : Bits) (k : Chunk) :
    (k.push sh v c).prevExp = BitVec.ofNat 11 (getExp sh v) := rfl

@[simp] theorem push_ss (sh : Shape) (v : BitVec 64) (c : Bits) (k : Chunk) :
    (k.push sh v c).ss = k.ss ++ [getSign sh v ^^ k.prevSign] := rfl

@[simp] theorem push_xs (sh : Shape) (v : BitVec 64) (c : Bits) (k : Chunk) :
    (k.push sh v c).xs = k.xs ++ c := rfl

@[simp] theorem push_ps (sh : Shape) (v : BitVec 64) (c : Bits) (k : Chunk) :
    (k.push sh v c).ps = (k.ps.zipIdx.map fun (p, i) => p ++ [planeBit (getMantissa sh v) (getExp sh v) i]) := rfl

@[simp] theorem align_phase (k : Chunk) : k.align.phase = .finalized := rfl

@[simp] theorem align_count (k : Chunk) : k.align.count = k.count := rfl

@[simp] theorem align_prevSign (k : Chunk) : k.align.prevSign = k.prevSign := rfl

@[simp] theorem align_prevExp (k : Chunk) : k.align.prevExp = k.prevExp := rfl

@[simp] theorem align_ss (k : Chunk) : k.align.ss = pad8 k.ss := rfl

@[simp] theorem align_xs (k : Chunk) : k.align.xs = pad8 k.xs := rfl

@[simp] theorem align_ps (k : Chunk) : k.align.ps = k.ps.map pad8 := rfl

@[simp] theorem inPhase_phase (k : Chunk) (p : Phase) : (k.inPhase p).phase = p := rfl

@[simp] theorem inPhase_count (k : Chunk) (p : Phase) : (k.inPhase p).count = k.count := rfl

@[simp] theorem inPhase_prevSign (k : Chunk) (p : Phase) : (k.inPhase p).prevSign = k.prevSign := rfl

@[simp] theorem inPhase_prevExp (k : Chunk) (p : Phase) : (k.inPhase p).prevExp = k.prevExp := rfl

@[simp] theorem inPhase_ss (k : Chunk) (p : Phase) : (k.inPhase p).ss = k.ss := rfl

@[simp] theorem inPhase_xs (k : Chunk) (p : Phase) : (k.inPhase p).xs = k.xs := rfl

@[simp] theorem inPhase_ps (k : Chunk) (p : Phase) : (k.inPhase p).ps = k.ps := rfl

end Sys2Proof.Machine
end

