-- ==== Sys2Proof/Laws/Ops.lean ====
section
/-! SUPPORT. What each shared operation can do, said once, for the provers to cite instead of unfolding it. -/

namespace Sys2Proof.Machine

/-! ## Readers -/

@[simp] theorem ok_andThen {σ α β : Type} (a : α) (r : σ) (f : α → σ → ReadResult σ β) :
    (ReadResult.ok a r).andThen f = f a r := rfl

@[simp] theorem raised_andThen {σ α β : Type} (k : Status) (r : σ) (f : α → σ → ReadResult σ β) :
    (ReadResult.raised k r : ReadResult σ α).andThen f = .raised k r := rfl

/-- A sequence of two readings succeeds only if both do. -/
theorem andThen_eq_ok {σ α β : Type} {x : ReadResult σ α} {f : α → σ → ReadResult σ β} {b : β} {r : σ} :
    x.andThen f = .ok b r ↔ ∃ a r', x = .ok a r' ∧ f a r' = .ok b r := by
  cases x <;> simp [ReadResult.andThen]

/-- It raises what the first reading raises, or what the second does. -/
theorem andThen_eq_raised {σ α β : Type} {x : ReadResult σ α} {f : α → σ → ReadResult σ β} {k : Status} {r : σ} :
    x.andThen f = .raised k r ↔ x = .raised k r ∨ ∃ a r', x = .ok a r' ∧ f a r' = .raised k r := by
  cases x <;> simp [ReadResult.andThen]

/-- `next_byte` gives the byte in front (43_chunk_decoder.md R191). -/
theorem nextByte_ok {items rest : List InItem} {b : Byte} :
    nextByte items = .ok b rest ↔ items = .byte b :: rest := by
  rcases items with _ | ⟨_ | _, tl⟩ <;> simp [nextByte]

/-- `next_byte` raises CORRUPT_STREAM at the end, and IO_FAILURE at a failing item, which it takes (R191). -/
theorem nextByte_raised {items rest : List InItem} {k : Status} :
    nextByte items = .raised k rest ↔
      (items = [] ∧ k = .corruptStream ∧ rest = []) ∨ (items = .fail :: rest ∧ k = .ioFailure) := by
  rcases items with _ | ⟨_ | _, tl⟩
  · exact ⟨fun h => by cases h; exact .inl ⟨rfl, rfl, rfl⟩, fun h => by rcases h with ⟨_, rfl, rfl⟩ | ⟨h, _⟩ <;> trivial⟩
  · simp [nextByte]
  · exact ⟨fun h => by cases h; exact .inr ⟨rfl, rfl⟩, fun h => by rcases h with ⟨h, _⟩ | ⟨h, rfl⟩ <;> cases h; rfl⟩

/-- `n` bytes are read exactly when the first `n` items are bytes, and they alone are taken. -/
theorem takeBytes_ok {n : Nat} {items rest : List InItem} {bs : List Byte} :
    takeBytes n items = .ok bs rest ↔ bs.length = n ∧ items = bs.map .byte ++ rest := by
  induction n generalizing items rest bs with
  | zero =>
    simp only [takeBytes]
    constructor
    · intro h; cases h; simp
    · rintro ⟨h, rfl⟩; simp [List.length_eq_zero_iff.mp h]
  | succ n ih =>
    simp only [takeBytes, andThen_eq_ok, nextByte_ok, ih]
    constructor
    · rintro ⟨b, _, rfl, bs', _, ⟨hl, rfl⟩, h⟩
      cases h
      simp [hl]
    · rintro ⟨hl, rfl⟩
      cases bs with
      | nil => simp at hl
      | cons b bs => exact ⟨b, _, rfl, bs, rest, ⟨by simpa using hl, rfl⟩, rfl⟩

/-- A failing `takeBytes` has taken fewer bytes than asked for, and stopped at the end or at a failing item. -/
theorem takeBytes_raised {n : Nat} {items rest : List InItem} {k : Status} (h : takeBytes n items = .raised k rest) :
    ∃ bs : List Byte, bs.length < n ∧
      ((items = bs.map .byte ∧ k = .corruptStream ∧ rest = []) ∨
        (items = bs.map .byte ++ .fail :: rest ∧ k = .ioFailure)) := by
  induction n generalizing items rest with
  | zero => simp [takeBytes] at h
  | succ n ih =>
    simp only [takeBytes] at h
    rcases andThen_eq_raised.mp h with h | ⟨b, r, hb, h⟩
    · rcases nextByte_raised.mp h with ⟨rfl, rfl, rfl⟩ | ⟨rfl, rfl⟩
      · exact ⟨[], by simp, .inl ⟨rfl, rfl, rfl⟩⟩
      · exact ⟨[], by simp, .inr ⟨rfl, rfl⟩⟩
    · rcases andThen_eq_raised.mp h with h | ⟨_, _, _, h⟩
      · obtain ⟨bs, hl, hbs⟩ := ih h
        have e := nextByte_ok.mp hb
        subst e
        refine ⟨b :: bs, by simpa using hl, ?_⟩
        rcases hbs with ⟨rfl, rfl, rfl⟩ | ⟨rfl, rfl⟩
        · exact .inl ⟨rfl, rfl, rfl⟩
        · exact .inr ⟨rfl, rfl⟩
      · cases h

/-- With an unread bit at hand no item is taken (43_chunk_decoder.md R194). -/
@[simp] theorem read1_cons (b : Bool) (bs : Bits) (items : List InItem) :
    BitReader.read1 ⟨b :: bs, items⟩ = .ok b ⟨bs, items⟩ := rfl

/-- With none, the next byte is taken and its bit 7 read. -/
@[simp] theorem read1_byte (b : Byte) (items : List InItem) :
    BitReader.read1 ⟨[], .byte b :: items⟩ = .ok (b.getLsbD 7) ⟨(unpackByte b).tail, items⟩ := rfl

@[simp] theorem read1_fail (items : List InItem) :
    BitReader.read1 ⟨[], .fail :: items⟩ = .raised .ioFailure ⟨[], items⟩ := rfl

@[simp] theorem read1_end : BitReader.read1 ⟨[], []⟩ = .raised .corruptStream ⟨[], []⟩ := rfl

theorem windowRead1_of_lt {w : BitVec 16} {a k : Nat} (h : k < a) :
    windowRead1 w a k = .ok (w.getLsbD (15 - k)) (k + 1) := by
  simp [windowRead1, windowBit, Nat.not_le.mpr h]

theorem windowRead1_of_le {w : BitVec 16} {a k : Nat} (h : a ≤ k) :
    windowRead1 w a k = .raised .corruptStream k := by
  simp [windowRead1, h]

@[simp] theorem bitsRead1_cons (b : Bool) (bs : Bits) : bitsRead1 (b :: bs) = .ok b bs := rfl

/-! ## The sink -/

/-- What `OutByte` can do (20_memory.md R58): the byte is appended, or one answer is used up. -/
theorem outByte_cases (b : Byte) (s : State) :
    (∃ rest, (s.sinkAnswers = .ok :: rest ∨ (s.sinkAnswers = [] ∧ rest = [])) ∧
      outByte b s = (true, { s with out := s.out ++ [b], sinkStore := s.sinkStore ++ [b], sinkAnswers := rest })) ∨
    (∃ rest, s.sinkAnswers = .fail :: rest ∧ outByte b s = (false, { s with sinkAnswers := rest })) := by
  rcases h : s.sinkAnswers with _ | ⟨_ | _, rest⟩
  · exact .inl ⟨[], .inr ⟨rfl, rfl⟩, by simp only [outByte, h]⟩
  · exact .inl ⟨rest, .inl rfl, by simp only [outByte, h]⟩
  · exact .inr ⟨rest, rfl, by simp only [outByte, h]⟩

/-- What `sendBytes` can do: the bytes of a front part are appended to OUT and stay with the host, as many as it says,
all of them exactly when it succeeds; the answers used are a front part; no other field changes. -/
theorem sendBytes_effect (bs : List Byte) (j : Nat) (s : State) {good : Bool} {j' : Nat} {t : State}
    (h : sendBytes bs j s = (good, j', t)) :
    ∃ front back : List Byte, ∃ used : Nat, bs = front ++ back ∧ j' = j + front.length ∧ (good = true ↔ back = []) ∧
      t = { s with
        out := s.out ++ front, sinkStore := s.sinkStore ++ front, sinkAnswers := s.sinkAnswers.drop used } := by
  induction bs generalizing j s with
  | nil =>
    simp only [sendBytes, Prod.mk.injEq] at h
    obtain ⟨rfl, rfl, rfl⟩ := h
    exact ⟨[], [], 0, rfl, by simp, by simp, by simp⟩
  | cons b bs ih =>
    rcases outByte_cases b s with ⟨rest, hr, hb⟩ | ⟨rest, hr, hb⟩
    · simp only [sendBytes, hb] at h
      obtain ⟨front, back, used, rfl, rfl, hg, rfl⟩ := ih _ _ h
      refine ⟨b :: front, back, used + 1, rfl, by simp; omega, hg, ?_⟩
      rcases hr with hr | ⟨hr, rfl⟩ <;> simp [hr]
    · simp only [sendBytes, hb, Prod.mk.injEq] at h
      obtain ⟨rfl, rfl, rfl⟩ := h
      exact ⟨[], b :: bs, 1, rfl, by simp, by simp, by simp [hr]⟩

end Sys2Proof.Machine
end

