-- ==== Sys2Proof/Laws/Machine.lean ====
section
/-! SUPPORT. What each command and each host action can do, said once: inversion lemmas for the meanings with more than one
outcome, and one equation per host action. -/

namespace Sys2Proof.Machine

/-! ## The meanings -/

/-- VENC answers a codeword, or UNSUPPORTED_MAGNITUDE (41_varint_codec.md R140). -/
theorem execVenc_cases (v : BitVec 16) (s : State) :
    (∃ c, vlcEncode (int16 v) = .ok c ∧
      execVenc v s = .next (respond .ok ((windowOf c).setWidth 64) (BitVec.ofNat 5 c.length) s)) ∨
    (vlcEncode (int16 v) = .error .unsupportedMagnitude ∧
      execVenc v s = .next (respond .unsupportedMagnitude 0#64 0#5 s)) := by
  cases h : vlcEncode (int16 v) with
  | ok c => exact .inl ⟨c, rfl, by simp [execVenc, h]⟩
  | error k =>
    obtain ⟨rfl, -⟩ := vlcEncode_error h
    exact .inr ⟨rfl, by simp [execVenc, h]⟩

/-- VDEC answers a response and changes nothing else (R145). -/
theorem execVdec_cases (w : BitVec 16) (a : BitVec 5) (s : State) :
    (16 < a.toNat ∧ execVdec w a s = .next (respond .illegalCommand 0#64 0#5 s)) ∨
    (∃ v len r, a.toNat ≤ 16 ∧ vlcDecode (windowRead1 w a.toNat) 0 = .ok (v, len) r ∧
      execVdec w a s = .next (respond .ok (sext64 v) (BitVec.ofNat 5 len) s)) ∨
    (∃ k r, a.toNat ≤ 16 ∧ vlcDecode (windowRead1 w a.toNat) 0 = .raised k r ∧
      execVdec w a s = .next (respond k 0#64 0#5 s)) := by
  by_cases ha : 16 < a.toNat
  · exact .inl ⟨ha, by simp [execVdec, ha]⟩
  · have ha' : a.toNat ≤ 16 := Nat.not_lt.mp ha
    cases h : vlcDecode (windowRead1 w a.toNat) 0 with
    | ok d r => exact .inr (.inl ⟨d.1, d.2, r, ha', rfl, by simp [execVdec, ha, h]⟩)
    | raised k r => exact .inr (.inr ⟨k, r, ha', rfl, by simp [execVdec, ha, h]⟩)

/-- The four paths of APPEND; the last, the codec's refusal, is kept though no sample takes it (42_chunk_encoder.md R163,
R164, 90_conflicts.md C3). -/
theorem execAppend_cases (a : BitVec 64) (s : State) :
    (s.chunk.phase ≠ .opened ∧ execAppend a s = .next (respond .sequenceError 0#64 0#5 s)) ∨
    (s.chunk.phase = .opened ∧ s.chunk.count = s.config.maxSamples ∧
      execAppend a s = .next (respond .countOverflow 0#64 0#5 s)) ∨
    (∃ c, s.chunk.phase = .opened ∧ s.chunk.count ≠ s.config.maxSamples ∧
      appendCodeword s.config.shape (sampleOf s.config.shape a) s.chunk = .ok c ∧
      execAppend a s = .next (respond .ok 0#64 (BitVec.ofNat 5 c.length)
        { s with chunk := s.chunk.push s.config.shape (sampleOf s.config.shape a) c })) ∨
    (∃ k, appendCodeword s.config.shape (sampleOf s.config.shape a) s.chunk = .error k ∧
      execAppend a s = .next (respond k 0#64 0#5 s)) := by
  by_cases hp : s.chunk.phase = .opened
  · by_cases hc : s.chunk.count = s.config.maxSamples
    · exact .inr (.inl ⟨hp, hc, by simp [execAppend, hp, hc]⟩)
    · cases h : appendCodeword s.config.shape (sampleOf s.config.shape a) s.chunk with
      | ok c => exact .inr (.inr (.inl ⟨c, hp, hc, rfl, by simp [execAppend, hp, hc, h]⟩))
      | error k => exact .inr (.inr (.inr ⟨k, rfl, by simp [execAppend, hp, hc, h]⟩))
  · exact .inl ⟨hp, by simp [execAppend, hp]⟩

/-- The three paths of SERIALIZE (42_chunk_encoder.md R175 to R177). -/
theorem execSerialize_cases (s : State) :
    (s.chunk.phase ≠ .finalized ∧ execSerialize s = .next (respond .sequenceError 0#64 0#5 s)) ∨
    (∃ used, s.chunk.phase = .finalized ∧
      execSerialize s = .next (respond .ok (BitVec.ofNat 64 s.chunk.bytes.length) 0#5
        { s with
          chunk := s.chunk.inPhase .serialized, out := s.out ++ s.chunk.bytes
          sinkStore := s.sinkStore ++ s.chunk.bytes, sinkAnswers := s.sinkAnswers.drop used })) ∨
    (∃ front back used, s.chunk.phase = .finalized ∧ s.chunk.bytes = front ++ back ∧ back ≠ [] ∧
      execSerialize s = .next (respond .ioFailure (BitVec.ofNat 64 front.length) 0#5
        { s with
          chunk := s.chunk.inPhase .failed, out := s.out ++ front
          sinkStore := s.sinkStore ++ front, sinkAnswers := s.sinkAnswers.drop used })) := by
  by_cases hp : s.chunk.phase = .finalized
  · rcases h : sendBytes s.chunk.bytes 0 s with ⟨good, j, t⟩
    obtain ⟨front, back, used, hb, rfl, hg, rfl⟩ := sendBytes_effect _ _ _ h
    cases good with
    | true =>
      have hback : back = [] := hg.mp rfl
      subst hback
      rw [List.append_nil] at hb
      refine .inr (.inl ⟨used, hp, ?_⟩)
      simp only [execSerialize, hp, h, ← hb]
      simp
    | false =>
      refine .inr (.inr ⟨front, back, used, hp, hb, fun e => by simpa using hg.mpr e, ?_⟩)
      simp [execSerialize, hp, h]
  · exact .inl ⟨hp, by simp [execSerialize, hp]⟩

/-- The two paths of DESERIALIZE (43_chunk_decoder.md R190, R199). -/
theorem execDeserialize_cases (s : State) :
    (∃ vs items, decodeContainer s.config s.input = .ok vs items ∧
      execDeserialize s = .next (respond .ok (BitVec.ofNat 64 vs.length) 0#5
        { s with samplesOut := vs, input := items })) ∨
    (∃ k items, decodeContainer s.config s.input = .raised k items ∧
      execDeserialize s = .next (respond k 0#64 0#5 { s with input := items })) := by
  cases h : decodeContainer s.config s.input with
  | ok vs items => exact .inl ⟨vs, items, rfl, by simp [execDeserialize, h]⟩
  | raised k items => exact .inr ⟨k, items, rfl, by simp [execDeserialize, h]⟩

/-! ## The host's actions -/

theorem step_idle {s : State} (h : s.actions = []) : step s = .next s := by
  simp [step, nextAction, h]

theorem step_act {s : State} {a : HostAction} {rest : List HostAction} (h : s.actions = a :: rest) :
    step s = act a { s with actions := rest } := by
  simp [step, nextAction, h]

theorem issueCommand_of_decode {s : State} {i : Instr} (h : decodeCommand (fetch s) = .ok i) :
    issueCommand s = exec i (beginCommand s) := by
  simp [issueCommand, h]

theorem issueCommand_of_illegal {s : State} {e : DecodeError} (h : decodeCommand (fetch s) = .error e) :
    issueCommand s = .next (respond .illegalCommand 0#64 0#5 (beginCommand s)) := by
  simp [issueCommand, h]

end Sys2Proof.Machine
end

