-- ==== Sys2Proof/Laws/PerInstr.lean ====
section
/-! SUPPORT. Statements about every instruction as syntax, proved one constructor at a time. -/

/-- What spec/opcode_table.json says of the fixed bits of a row: a command encodes to a triple with no reserved bit of CMD
set and an operation code from 1 to 7 (30_encoding.md R81); a codeword class encodes to a window that matches its row under
its mask (R91). -/
def Sys2Proof.Laws.TableRow.Statement (i : Sys2Proof.Instr) : Prop :=
  match Sys2Proof.encode i with
  | .command c => i.isCodeword = false ∧ i.windowRow = none ∧ c.rsvd = 0 ∧ 1 ≤ c.op.toNat ∧ c.op.toNat ≤ 7
  | .window w => i.isCodeword = true ∧ ∃ r ∈ Sys2Proof.windowRows, i.windowRow = some r ∧ w &&& r.2 = r.1

namespace Sys2Proof.Laws.TableRow

/-- The fixed bits of a command row, from its CMD word alone. -/
theorem of_cmd {i : Instr} {cmd : BitVec 32} {argA : BitVec 64} {argB : BitVec 8}
    (he : encode i = .command ⟨cmd, argA, argB⟩) (hi : i.isCodeword = false ∧ i.windowRow = none)
    (hc : cmd.extractLsb' 4 28 = 0 ∧ 1 ≤ (cmd.extractLsb' 0 4).toNat ∧ (cmd.extractLsb' 0 4).toNat ≤ 7) :
    Statement i := by
  unfold Statement
  rw [he]
  exact ⟨hi.1, hi.2, hc⟩

theorem new (hint : BitVec 32) : Statement (.new hint) := of_cmd rfl ⟨rfl, rfl⟩ (by decide)

theorem append (argA : BitVec 64) : Statement (.append argA) := of_cmd rfl ⟨rfl, rfl⟩ (by decide)

theorem finalize : Statement .finalize := of_cmd rfl ⟨rfl, rfl⟩ (by decide)

theorem serialize : Statement .serialize := of_cmd rfl ⟨rfl, rfl⟩ (by decide)

theorem deserialize : Statement .deserialize := of_cmd rfl ⟨rfl, rfl⟩ (by decide)

theorem venc (value : BitVec 16) : Statement (.venc value) := of_cmd rfl ⟨rfl, rfl⟩ (by decide)

theorem vdec (window : BitVec 16) (avail : BitVec 5) : Statement (.vdec window avail) := of_cmd rfl ⟨rfl, rfl⟩ (by decide)

theorem zero : Statement .zero := ⟨rfl, (0x0000, 0xC000), by decide, rfl, by decide⟩

theorem plus1 : Statement .plus1 := ⟨rfl, (0x4000, 0xC000), by decide, rfl, by decide⟩

theorem minus1 : Statement .minus1 := ⟨rfl, (0x8000, 0xC000), by decide, rfl, by decide⟩

theorem band4 (neg : Bool) (offset : BitVec 4) : Statement (.band4 neg offset) := by
  refine ⟨rfl, (0xC000, 0xE000), by decide, rfl, ?_⟩
  revert offset neg
  decide

theorem band7 (neg : Bool) (offset : BitVec 7) : Statement (.band7 neg offset) := by
  refine ⟨rfl, (0xE000, 0xF000), by decide, rfl, ?_⟩
  revert offset neg
  decide +kernel

theorem band10 (neg : Bool) (offset : BitVec 10) : Statement (.band10 neg offset) := by
  refine ⟨rfl, (0xF000, 0xF800), by decide, rfl, ?_⟩
  revert offset neg
  decide +kernel

theorem reserved : Statement .reserved := ⟨rfl, (0xF800, 0xF800), by decide, rfl, by decide⟩

end Sys2Proof.Laws.TableRow
end

