-- ==== Sys2Proof/Laws/Readers.lean ====
section
/-! SUPPORT. Readers that deliver a given bit sequence: one relation for the three readers of the codec, and what reading an
offset gives over any of them. -/

namespace Sys2Proof.Machine

/-- From `r`, the reader delivers exactly the bits of the list, one after another, and then stands at `r'`. -/
def Delivers {σ : Type} (read1 : σ → ReadResult σ Bool) : σ → Bits → σ → Prop
  | r, [], r' => r = r'
  | r, b :: bs, r' => ∃ r1, read1 r = .ok b r1 ∧ Delivers read1 r1 bs r'

section
variable {σ : Type} {read1 : σ → ReadResult σ Bool}

theorem Delivers.append {r r' r'' : σ} {bs cs : Bits} (h : Delivers read1 r bs r') (h' : Delivers read1 r' cs r'') :
    Delivers read1 r (bs ++ cs) r'' := by
  induction bs generalizing r with
  | nil => cases h; exact h'
  | cons b bs ih =>
    obtain ⟨r1, hb, h⟩ := h
    exact ⟨r1, hb, ih h⟩

theorem delivers_append {r r'' : σ} {bs cs : Bits} :
    Delivers read1 r (bs ++ cs) r'' ↔ ∃ r', Delivers read1 r bs r' ∧ Delivers read1 r' cs r'' := by
  refine ⟨fun h => ?_, fun ⟨_, h, h'⟩ => h.append h'⟩
  induction bs generalizing r with
  | nil => exact ⟨r, rfl, h⟩
  | cons b bs ih =>
    obtain ⟨r1, hb, h⟩ := h
    obtain ⟨r', h1, h2⟩ := ih h
    exact ⟨r', ⟨r1, hb, h1⟩, h2⟩

/-- Reading `n` offset bits gives their number, most significant first (41_varint_codec.md R131). -/
theorem readOffset_of_delivers (n off u : Nat) {r r' : σ} (h : Delivers read1 r (bitsN n u) r') :
    readOffset read1 n off r = .ok (off * 2 ^ n + u % 2 ^ n) r' := by
  induction n generalizing off r with
  | zero => cases h; simp [readOffset, Nat.mod_one]
  | succ n ih =>
    obtain ⟨r1, hb, h⟩ := h
    have e : u % 2 ^ (n + 1) = u % 2 ^ n + 2 ^ n * (u.testBit n).toNat := by
      rw [pow_succ, Nat.mod_mul, Nat.testBit_eq_decide_div_mod_eq]
      rcases Nat.mod_two_eq_zero_or_one (u / 2 ^ n) with h0 | h0 <;> simp [h0]
    simp only [readOffset, hb, ok_andThen, ih _ h]
    congr 1
    rw [e]
    ring

end

/-- The plain bit reader delivers what is in front. -/
theorem bitsRead1_delivers (bs rest : Bits) : Delivers bitsRead1 (bs ++ rest) bs rest := by
  induction bs with
  | nil => rfl
  | cons b bs ih => exact ⟨bs ++ rest, rfl, ih⟩

/-- The unread bits are delivered without taking an item. -/
theorem bitReader_delivers_unread (bs rest : Bits) (items : List InItem) :
    Delivers BitReader.read1 ⟨bs ++ rest, items⟩ bs ⟨rest, items⟩ := by
  induction bs with
  | nil => rfl
  | cons b bs ih => exact ⟨_, rfl, ih⟩

/-- The bit reader delivers the bits of the bytes in front of IN, and takes those bytes (43_chunk_decoder.md R194). -/
theorem bitReader_delivers (bs : List Byte) (items : List InItem) :
    Delivers BitReader.read1 ⟨[], bs.map .byte ++ items⟩ (unpack bs) ⟨[], items⟩ := by
  induction bs with
  | nil => rfl
  | cons b bs ih =>
    rw [unpack_cons]
    refine Delivers.append (r' := ⟨[], bs.map .byte ++ items⟩) ?_ ih
    refine ⟨⟨(unpackByte b).tail, bs.map .byte ++ items⟩, rfl, ?_⟩
    have h := bitReader_delivers_unread (unpackByte b).tail [] (bs.map .byte ++ items)
    rwa [List.append_nil] at h

/-- The window reader delivers the window's bits from position `k` on, as long as they are valid. -/
theorem windowRead1_delivers (w : BitVec 16) (a n k : Nat) (h : k + n ≤ a) :
    Delivers (windowRead1 w a) k ((List.range n).map fun j => w.getLsbD (15 - (k + j))) (k + n) := by
  induction n generalizing k with
  | zero => rfl
  | succ n ih =>
    have hk := ih (k + 1) (by omega)
    rw [List.range_succ_eq_map, List.map_cons, List.map_map]
    refine ⟨k + 1, windowRead1_of_lt (by omega), ?_⟩
    have e : k + (n + 1) = k + 1 + n := by omega
    rw [e]
    convert hk using 2
    funext j
    simp only [Function.comp_apply]
    congr 2
    omega

end Sys2Proof.Machine
end

