-- ==== Sys2Proof/Tests/Slice0.lean ====
section
/-! SUPPORT. Tests of the model and witnesses for the statements' hypotheses. Every expected value is written out from the
spec: its encoding tables, or the vectors of 95_test_vectors.md, whose section each test names. -/

-- One theorem is elaborated after another: a hundred at once would each want a thread with a large stack.
set_option Elab.async false

namespace Sys2Proof.Tests

open Sys2Proof.Machine

/-! ## Helpers -/

/-- A fresh F32 instance. -/
def s32 : State := State.reset

/-- A fresh F64 instance. -/
def s64 : State := State.resetFor (Config.ofShape .f64)

/-- A fresh F32 instance whose host issues one command. -/
def issuing (cmd : BitVec 32) (argA : BitVec 64) (argB : BitVec 8) : State :=
  { s32 with cmd := cmd, argA := argA, argB := argB, actions := [.issue] }

/-- The state an outcome goes on with. -/
def goesOn : Host.Outcome State Fault Refusal → Option State
  | .next t => some t
  | .fault _ => none
  | .refused _ => none

/-- What a test reads of an outcome: RSP_STATUS, RSP_DATA and RSP_LEN. -/
def answerOf (o : Host.Outcome State Fault Refusal) : Option (BitVec 4 × BitVec 64 × BitVec 5) :=
  (goesOn o).map fun t => (t.rsp.status, t.rsp.data, t.rsp.len)

/-- The chunk of P1 after its three APPENDs (95_test_vectors.md 2.6): plane `i` holds `0, 1, m[i] xor 1`. -/
def p1Chunk : Chunk where
  phase := .opened
  count := 3
  prevSign := true
  prevExp := 125
  ss := [false, false, true]
  xs := [false, false] ++ [true, true, true, false, false, true, true, false, true, true, false, true]
    ++ [true, true, false, true, false, false, false, false]
  ps := (List.range 23).map fun i => [false, true, (0x2AAAAB#32).getLsbD i ^^ true]

/-- The 31 bytes of P1 (95_test_vectors.md section 3). -/
def p1Bytes : List Byte :=
  [0x00, 0x00, 0x00, 0x03, 0x20, 0x39, 0xB7, 0x40,
   0x40, 0x40, 0x60, 0x40, 0x60, 0x40, 0x60, 0x40, 0x60, 0x40, 0x60, 0x40, 0x60, 0x40, 0x60, 0x40,
   0x60, 0x40, 0x60, 0x40, 0x60, 0x40, 0x60]

/-- P1's chunk byte-aligned: five pad bits in the sign stream and each plane, two in the exponent stream (2.7). -/
def p1Aligned : Chunk :=
  { p1Chunk with
    phase := .finalized
    ss := p1Chunk.ss ++ List.replicate 5 false
    xs := p1Chunk.xs ++ List.replicate 2 false
    ps := p1Chunk.ps.map (· ++ List.replicate 5 false) }

/-- An instance that decodes a given list of items. -/
def reading (items : List InItem) : State := { s32 with input := items }

/-! ## Well-formedness: the check refuses an ill-formed term -/

theorem test_wf_refuses_avail_17 : (Instr.vdec 0xD000 17).wellFormed = false := by decide

theorem test_wf_accepts_avail_16 : (Instr.vdec 0xD000 16).wellFormed = true := by decide

/-! ## Decoding: a word written out for every constructor (30_encoding.md R81, R82, R87, R91) -/

theorem test_decode_new : decode (.command ⟨0x00000001, 0xFFFFFFFF00000400, 0xFF⟩) = .ok (.new 1024) := by decide

theorem test_decode_append :
    decode (.command ⟨0x00000002, 0x3FF0000000000000, 0x00⟩) = .ok (.append 0x3FF0000000000000) := by decide

theorem test_decode_finalize : decode (.command ⟨0x00000003, 0, 0⟩) = .ok .finalize := by decide

theorem test_decode_serialize : decode (.command ⟨0x00000004, 0, 0⟩) = .ok .serialize := by decide

theorem test_decode_deserialize : decode (.command ⟨0x00000005, 0, 0⟩) = .ok .deserialize := by decide

theorem test_decode_venc : decode (.command ⟨0x00000006, 0x000000000000FFFE, 0⟩) = .ok (.venc 0xFFFE) := by decide

theorem test_decode_vdec : decode (.command ⟨0x00000007, 0x000000000000F3FF, 0x10⟩) = .ok (.vdec 0xF3FF 16) := by decide

theorem test_decode_zero : decode (.window 0b0011111111111111) = .ok .zero := by decide

theorem test_decode_plus1 : decode (.window 0b0100000000000000) = .ok .plus1 := by decide

theorem test_decode_minus1 : decode (.window 0b1000000000000000) = .ok .minus1 := by decide

/-- `110`, sign 1, offset 0101, then eight bits that are not the codeword's. -/
theorem test_decode_band4 : decode (.window 0b1101010111111111) = .ok (.band4 true 5) := by decide

/-- `1110`, sign 0, offset 1101101. -/
theorem test_decode_band7 : decode (.window 0b1110011011010000) = .ok (.band7 false 109) := by decide

/-- `11110`, sign 1, offset 1000000001. -/
theorem test_decode_band10 : decode (.window 0b1111011000000001) = .ok (.band10 true 513) := by decide

theorem test_decode_reserved : decode (.window 0b1111100000000000) = .ok .reserved := by decide

/-- 95_test_vectors.md 2.5 and the last rows of 2.4: each illegal word is rejected, by name. -/
theorem test_decode_rejects :
    decode (.command ⟨0x00000000, 0, 0⟩) = .error .reservedOp ∧
    decode (.command ⟨0x00000008, 0, 0⟩) = .error .reservedOp ∧
    decode (.command ⟨0x0000000F, 0, 0⟩) = .error .reservedOp ∧
    decode (.command ⟨0x00000012, 0, 0⟩) = .error .reservedBitsSet ∧
    decode (.command ⟨0x80000001, 0, 0⟩) = .error .reservedBitsSet ∧
    decode (.command ⟨0x00000007, 0, 0x11⟩) = .error .availTooLarge ∧
    decode (.command ⟨0x00000007, 0, 0x28⟩) = .error .reservedArgBitsSet := by
  decide

theorem test_encode_words :
    encode (.venc 0xFFFE) = .command ⟨6, 0xFFFE, 0⟩ ∧ encode (.vdec 0xD000 8) = .command ⟨7, 0xD000, 8⟩ ∧
    encode (.band4 true 0) = .window 0xD000 ∧ encode (.band7 false 109) = .window 0xE6D0 ∧
    encode (.band10 true 1023) = .window 0xF7FF ∧ encode .minus1 = .window 0x8000 := by
  decide

theorem test_table_words :
    decodeTableWord 32 5 = some .deserialize ∧ decodeTableWord 16 0xE000 = some (.band7 false 0) ∧
    decodeTableWord 104 ((8 <<< 96) + (0xD000 <<< 32) + 7) = some (.vdec 0xD000 8) := by
  decide

/-! ## Fields and exponents (95_test_vectors.md 2.1, 2.2) -/

theorem test_fields_f32 :
    getSign .f32 0xBEAAAAAB = true ∧ getExp .f32 0xBEAAAAAB = 125 ∧ getMantissa .f32 0xBEAAAAAB = 0x2AAAAB ∧
    fromParts .f32 true 125 0x2AAAAB = 0xBEAAAAAB := by
  decide

theorem test_fields_f64 :
    getSign .f64 0x7FF8000000000001 = false ∧ getExp .f64 0x7FF8000000000001 = 2047 ∧
    getMantissa .f64 0x7FF8000000000001 = 0x8000000000001 ∧
    fromParts .f64 false 2047 0x8000000000001 = 0x7FF8000000000001 := by
  decide

theorem test_exp_diff_edges :
    expDiff .f32 0 128 = 128 ∧ expDiff .f32 0 129 = -127 ∧ expDiff .f32 255 0 = 1 ∧ expDiff .f64 1024 0 = 1024 ∧
    expDiff .f64 0 1025 = -1023 := by
  decide

theorem test_exp_adv_outside_range : expAdv .f32 0 1000 = 232 ∧ expAdv .f32 10 (-1169) = 121 := by decide

/-! ## Meanings -/

/-- 95_test_vectors.md section 3, P1 line 1, over a chunk in progress. -/
theorem test_new_discards :
    (goesOn (exec (.new 1024) { s32 with chunk := p1Aligned })).map (fun t => (t.chunk, t.rsp)) =
      some ((s32.chunk, ⟨0, 0, 0, 0, 0⟩) : Chunk × Response) := by
  decide +kernel

/-- 95_test_vectors.md 2.6, k = 2. -/
theorem test_append_third_sample :
    (goesOn (exec (.append 0xBEAAAAAB)
      { s32 with chunk :=
        { p1Chunk with
          count := 2, prevSign := false, prevExp := 127, ss := [false, false], xs := p1Chunk.xs.take 14
          ps := p1Chunk.ps.map (·.take 2) } })).map (fun t => (t.chunk, t.rsp)) =
      some ((p1Chunk, ⟨0, 0, 8, 0, 3⟩) : Chunk × Response) := by
  decide +kernel

/-- P2 line 3 (section 3): the closed upper edge, delta +1024. -/
theorem test_append_f64_edge :
    answerOf (exec (.append 0x8000000000000000) { s64 with chunk := { s64.chunk with prevExp := 1024, count := 2 } }) =
      some (0, 0, 16) := by
  decide +kernel

/-- 95_test_vectors.md 2.7, the row of P1. -/
theorem test_finalize_pads :
    (goesOn (exec .finalize { s32 with chunk := p1Chunk })).map (·.chunk) = some p1Aligned := by
  decide +kernel

/-- P4 line 6 (section 3): a second FINALIZE. -/
theorem test_finalize_twice : answerOf (exec .finalize { s32 with chunk := p1Aligned }) = some (4, 0, 0) := by
  decide +kernel

/-- P1 line 6 (section 3). -/
theorem test_serialize_p1 :
    (goesOn (exec .serialize { s32 with chunk := p1Aligned })).map (fun t => (t.out, t.rsp)) =
      some (p1Bytes, (⟨0, 31, 0, 2, 3⟩ : Response)) := by
  decide +kernel

/-- The sink fails on the byte at offset 5, as in P4 line 8 (section 3). -/
theorem test_serialize_sink_fails :
    (goesOn (exec .serialize
      { s32 with chunk := p1Aligned, sinkAnswers := [.ok, .ok, .ok, .ok, .ok, .fail, .ok] })).map
        (fun t => (t.out, t.rsp, t.sinkAnswers)) =
      some ([0x00, 0x00, 0x00, 0x03, 0x20], (⟨3, 5, 0, 3, 3⟩ : Response), [.ok]) := by
  decide +kernel

/-- P5 line 1 (section 3): the bytes after the container stay. -/
theorem test_deserialize_p1 :
    (goesOn (exec .deserialize (reading (itemsOf (p1Bytes ++ [0x55, 0x66]))))).map
        (fun t => (t.samplesOut, t.input, t.rsp)) =
      some ([0x00000000, 0x3F800000, 0xBEAAAAAB], itemsOf [0x55, 0x66], (⟨0, 3, 0, 0, 0⟩ : Response)) := by
  decide +kernel

/-- 95_test_vectors.md 2.8: the reserved prefix, six of seven items taken. -/
theorem test_deserialize_reserved_prefix :
    (goesOn (exec .deserialize (reading (itemsOf [0x00, 0x00, 0x00, 0x01, 0x00, 0xF8, 0x00])))).map
        (fun t => (t.rsp.status, t.input)) = some ((2 : BitVec 4), itemsOf [0x00]) := by
  decide +kernel

/-- 95_test_vectors.md 2.3. -/
theorem test_venc_band_edges :
    answerOf (exec (.venc 127) s32) = some (0, 0xE6D0, 12) ∧
    answerOf (exec (.venc (BitVec.ofInt 16 (-17))) s32) = some (0, 0xDF00, 8) ∧
    answerOf (exec (.venc (BitVec.ofInt 16 (-1169))) s32) = some (0, 0xF7FF, 16) := by
  decide +kernel

theorem test_venc_unsupported :
    answerOf (exec (.venc 1170) s32) = some (1, 0, 0) ∧ answerOf (exec (.venc 0x8000) s32) = some (1, 0, 0) := by
  decide +kernel

/-- 95_test_vectors.md 2.4. -/
theorem test_vdec_values :
    answerOf (exec (.vdec 0x8000 2) s32) = some (0, 0xFFFFFFFFFFFFFFFF, 2) ∧
    answerOf (exec (.vdec 0xD0FF 8) s32) = some (0, 0xFFFFFFFFFFFFFFFE, 8) ∧
    answerOf (exec (.vdec 0xEFF0 12) s32) = some (0, 0xFFFFFFFFFFFFFF6F, 12) ∧
    answerOf (exec (.vdec 0xF3FF 16) s32) = some (0, 0x0000000000000491, 16) := by
  decide +kernel

theorem test_vdec_errors :
    answerOf (exec (.vdec 0xF800 4) s32) = some (2, 0, 0) ∧ answerOf (exec (.vdec 0xF000 15) s32) = some (2, 0, 0) ∧
    answerOf (exec (.vdec 0x0000 0) s32) = some (2, 0, 0) ∧ answerOf (exec (.vdec 0x0000 17) s32) = some (6, 0, 0) := by
  decide +kernel

/-- The same values through the codeword classes (30_encoding.md R85). -/
theorem test_codeword_classes :
    answerOf (exec .zero s32) = some (0, 0, 2) ∧ answerOf (exec .plus1 s32) = some (0, 1, 2) ∧
    answerOf (exec .minus1 s32) = some (0, 0xFFFFFFFFFFFFFFFF, 2) ∧
    answerOf (exec (.band4 true 0) s32) = some (0, 0xFFFFFFFFFFFFFFFE, 8) ∧
    answerOf (exec (.band7 true 127) s32) = some (0, 0xFFFFFFFFFFFFFF6F, 12) ∧
    answerOf (exec (.band10 false 1023) s32) = some (0, 0x491, 16) ∧
    answerOf (exec .reserved s32) = some (2, 0, 0) := by
  decide +kernel

/-! ## Steps -/

/-- P6 line 2 (section 3), as a step. -/
theorem test_step_vdec : answerOf (step (issuing 7 0xD000 8)) = some (0, 0xFFFFFFFFFFFFFFFE, 8) := by decide +kernel

theorem test_step_illegal : answerOf (step (issuing 0x12 0 0)) = some (6, 0, 0) := by decide +kernel

theorem test_step_laid_command :
    (goesOn (step (State.reset.withFetchWord 32 3))).map (fun t => (t.chunk.phase, t.rsp.phase)) =
      some (Phase.finalized, 1) := by
  decide +kernel

theorem test_step_laid_window : answerOf (step (State.reset.withFetchWord 16 0xE6D0)) = some (0, 127, 12) := by
  decide +kernel

/-- 70_reset_and_hazards.md R241: a reset after three bytes. -/
theorem test_reset_during_serialize :
    (goesOn (step { s32 with chunk := p1Aligned, cmd := 4, actions := [.issueThenReset 3] })).map
        (fun t => (t.chunk, t.rsp, t.out, t.sinkStore)) =
      some (s32.chunk, Response.cleared, [], [0x00, 0x00, 0x00]) := by
  decide +kernel

/-! ## Witnesses: the hypotheses of each statement, met together, each clause at a boundary -/

theorem test_witness_DecodeEncodeRoundTrip : (Instr.vdec 0xFFFF 16).wellFormed = true := by decide +kernel

theorem test_witness_AcceptedCommandsEncodeBack :
    decodeCommand ⟨7, 0xFFFFFFFFFFFFFFFF, 16⟩ = .ok (.vdec 0xFFFF 16) ∧
    decodeCommand ⟨2, 0xFFFFFFFFFFFFFFFF, 0xFF⟩ = .ok (.append 0xFFFFFFFFFFFFFFFF) := by
  decide +kernel

/-- Each illegal form, and legal words next to them. -/
theorem test_witness_IllegalWordsAreRefused :
    (issuing 0x11 0 0).actions = [.issue] ∧ (0x11#32).extractLsb' 4 28 ≠ 0 ∧ (0x10#32).extractLsb' 0 4 = 0 ∧
    8 ≤ ((8#32).extractLsb' 0 4).toNat ∧ ((7#32).extractLsb' 0 4 = 7 ∧ 16 < ((17#8).extractLsb' 0 5).toNat) ∧
    (0x20#8).extractLsb' 5 3 ≠ 0 ∧
    ¬ ((7#32).extractLsb' 4 28 ≠ 0 ∨ (7#32).extractLsb' 0 4 = 0 ∨ 8 ≤ ((7#32).extractLsb' 0 4).toNat ∨
      ((7#32).extractLsb' 0 4 = 7 ∧ (16 < ((16#8).extractLsb' 0 5).toNat ∨ (16#8).extractLsb' 5 3 ≠ 0))) := by
  decide +kernel

theorem test_witness_WindowClassesPartition :
    (0x3FFF#16 &&& 0xC000 = 0x0000) ∧ (0x7FFF#16 &&& 0xC000 = 0x4000) ∧ (0xBFFF#16 &&& 0xC000 = 0x8000) ∧
    (0xDFFF#16 &&& 0xE000 = 0xC000) ∧ (0xEFFF#16 &&& 0xF000 = 0xE000) ∧ (0xF7FF#16 &&& 0xF800 = 0xF000) ∧
    (0xFFFF#16 &&& 0xF800 = 0xF800) := by
  decide +kernel

theorem test_witness_StepRunsDecodedInstruction :
    (issuing 7 0xD000 16).actions = .issue :: [] ∧ decode (.command (fetch (issuing 7 0xD000 16))) = .ok (.vdec 0xD000 16) := by
  decide +kernel

theorem test_witness_HostWritesTouchOneRegister :
    s32.actions = [] ∧ { s32 with actions := [.writeCmd 7] }.actions = [.writeCmd 7] ∧
    { s32 with actions := [.writeArgA 1, .reset] }.actions = [.writeArgA 1, .reset] ∧
    { s32 with actions := [.writeArgB 255] }.actions = [.writeArgB 255] ∧
    { s32 with actions := [.offer [.fail]] }.actions = [.offer [.fail]] := by
  decide +kernel

/-- For every instruction there are states in which it goes on; the frames' hypothesis. -/
theorem test_witness_exec_goes_on :
    (goesOn (exec (.new 0) s32)).isSome = true ∧ (goesOn (exec (.append 0) s32)).isSome = true ∧
    (goesOn (exec .finalize s32)).isSome = true ∧ (goesOn (exec .serialize s32)).isSome = true ∧
    (goesOn (exec .deserialize s32)).isSome = true ∧ (goesOn (exec (.venc 0) s32)).isSome = true ∧
    (goesOn (exec (.vdec 0 2) s32)).isSome = true ∧ (goesOn (exec .reserved s32)).isSome = true := by
  decide +kernel

theorem test_witness_NoInstructionWritesCommandRegisters : ∃ t, exec .zero s32 = .next t := ⟨_, rfl⟩

theorem test_witness_ResetEventValues : { s32 with chunk := p1Aligned, actions := [.reset] }.actions = .reset :: [] := by
  decide +kernel

/-- One item moved of the two that the command would take (R241), and none. -/
theorem test_witness_ResetDuringCommand :
    { s32 with cmd := 5, input := [.byte 0, .byte 0], actions := [.issueThenReset 1] }.actions =
      .issueThenReset 1 :: [] ∧
    (goesOn (step { s32 with cmd := 5, input := [.byte 0, .byte 0], actions := [.issueThenReset 1] })).map (·.input) =
      some [.byte 0] ∧
    { s32 with cmd := 5, actions := [.issueThenReset 0] }.actions = .issueThenReset 0 :: [] := by
  decide +kernel

theorem test_witness_ResetMeetsInvariant : Config.wf ⟨.f64, 1⟩ = true ∧ (Config.ofShape .f32).wf = true := by decide +kernel

/-- The invariant holds in a state whose next step runs FINALIZE, and that step goes on. -/
theorem test_witness_StepKeepsInvariant : (issuing 3 0 0).Inv ∧ ∃ t, step (issuing 3 0 0) = .next t :=
  ⟨{ config := by decide +kernel
     chunk :=
       { count_le := by decide +kernel
         prevExp_lt := by decide +kernel
         planes := by decide +kernel
         opened_lengths := fun _ => ⟨rfl, by decide +kernel, [], rfl, by simp, rfl⟩
         aligned_lengths := fun h => absurd rfl h }
     status := by decide +kernel
     len := by decide +kernel
     phase_copy := by decide +kernel
     count_copy := by decide +kernel
     samples := by intro v hv; cases hv }, ⟨_, rfl⟩⟩

/-- Its next state is out of OPEN, and that of an APPEND is in OPEN: both stream-length statements have their case. -/
theorem test_witness_StreamLengths :
    (goesOn (step (issuing 3 0 0))).map (·.chunk.phase) = some .finalized ∧
    (goesOn (step (issuing 2 0x3F800000 0))).map (·.chunk.phase) = some .opened := by
  decide +kernel

/-- The count one below the limit, where APPEND succeeds, and at the limit, where it fails. -/
theorem test_witness_CountNeverWraps :
    answerOf (exec (.append 0) { State.resetFor ⟨.f32, 3⟩ with chunk := { s32.chunk with count := 2 } }) = some (0, 0, 2) ∧
    answerOf (exec (.append 0) { State.resetFor ⟨.f32, 3⟩ with chunk := { s32.chunk with count := 3 } }) = some (5, 0, 0) ∧
    (goesOn (exec (.new 0) s32)).isSome = true ∧ (goesOn (exec .finalize s32)).isSome = true ∧
    (0 : Nat) ≤ s32.config.maxSamples.toNat ∧ (goesOn (step s32)).isSome = true := by
  decide +kernel

theorem test_witness_PrevFieldsFollowLastSample :
    answerOf (exec (.append 0xFFFFFFFF) s32) = some (0, 0, 2) ∧ (goesOn (exec (.new 0) s32)).isSome = true ∧
    (goesOn (exec .serialize s32)).isSome = true := by
  decide +kernel

/-- The four changes of phase. -/
theorem test_witness_PhaseChanges :
    (goesOn (exec (.new 0) { s32 with chunk := p1Aligned })).map (·.chunk.phase) = some .opened ∧
    (goesOn (exec .finalize s32)).map (·.chunk.phase) = some .finalized ∧
    (goesOn (exec .serialize { s32 with chunk := p1Aligned })).map (·.chunk.phase) = some .serialized ∧
    (goesOn (exec .serialize { s32 with chunk := p1Aligned, sinkAnswers := [.fail] })).map (·.chunk.phase) =
      some .failed := by
  decide +kernel

theorem test_witness_StreamsAreAppendOnly :
    answerOf (exec .finalize { s32 with chunk := p1Chunk }) = some (0, 0, 0) ∧ (goesOn (exec (.new 0) s32)).isSome = true ∧
    answerOf (exec (.append 0) { s32 with chunk := p1Chunk }) = some (0, 0, 12) := by
  decide +kernel

theorem test_witness_PackPutsFirstBitHighest :
    ([] : Bits).length % 8 = 0 ∧ (List.replicate 16 true).length % 8 = 0 ∧ 1 < (List.replicate 16 true).length / 8 := by
  decide +kernel

theorem test_witness_FieldsRebuildTheSample :
    (0xFFFFFFFF#64).toNat < 2 ^ Shape.width .f32 ∧ (0xFFFFFFFFFFFFFFFF#64).toNat < 2 ^ Shape.width .f64 := by
  decide +kernel

theorem test_witness_ExponentDeltaIsInvertible :
    255 < 2 ^ Shape.expBits .f32 ∧ 0 < 2 ^ Shape.expBits .f32 ∧ 2047 < 2 ^ Shape.expBits .f64 := by
  decide +kernel

theorem test_witness_EveryDeltaHasACodeword : ∃ t, exec (.append 0x3F800000) s32 = .next t := ⟨_, rfl⟩

theorem test_witness_CodecRoundTrip :
    (-1169 : Int) ≤ -1169 ∧ (1169 : Int) ≤ 1169 ∧ 1170 ≤ (1170 : Int).natAbs ∧ 1170 ≤ (-1170 : Int).natAbs := by
  decide +kernel

theorem test_witness_ConcatenatedCodewordsDecode :
    ∀ d ∈ [(-1169 : Int), 1169, 0, 1, -1, 2, -17, 18, 145, -146], -1169 ≤ d ∧ d ≤ 1169 := by
  decide +kernel

/-- A reading that succeeds, a value of the range, and sixteen bits that do not begin with the reserved prefix. -/
theorem test_witness_CodeIsOneToOne :
    vlcDecode bitsRead1 [true, true, false, true, false, false, false, false, true] = .ok (-2, 8) [true] ∧
    ((-1169 : Int) ≤ 1169 ∧ (1169 : Int) ≤ 1169) ∧
    (16 ≤ ([true, true, true, true, false] ++ List.replicate 11 true).length ∧
      ([true, true, true, true, false] ++ List.replicate 11 true).take 5 ≠ [true, true, true, true, true]) := by
  decide +kernel

/-- A codeword of each length. -/
theorem test_witness_LengthFromFirstBits :
    vlcEncode (-1) = .ok [true, false] ∧ (codeword 2).take 3 = [true, true, false] ∧
    (codeword 18).take 4 = [true, true, true, false] ∧ (codeword 1169).take 5 = [true, true, true, true, false] := by
  decide +kernel

theorem test_witness_ReservedPrefixStopsDecoding :
    vlcEncode (-1169) = .ok ([true, true, true, true, false] ++ List.replicate 11 true) := by
  decide +kernel

theorem test_witness_VencAnswersTheCodeword :
    vlcEncode (0x0491#16).toInt = .ok ([true, true, true, true, false, false] ++ List.replicate 10 true) ∧
    vlcEncode (0xFFFF#16).toInt = .ok [true, false] := by
  decide +kernel

theorem test_witness_UnsupportedMagnitudeOnlyFromVenc :
    1170 ≤ (0x0492#16).toInt.natAbs ∧ 1170 ≤ (0x8000#16).toInt.natAbs ∧
    answerOf (exec (.venc 0x0492) s32) = some (1, 0, 0) := by
  decide +kernel

/-- The BAND10 edge with exactly enough valid bits. -/
theorem test_witness_VdecAnswersTheValue :
    vlcEncode 1169 = .ok ([true, true, true, true, false, false] ++ List.replicate 10 true) ∧
    (∀ k, k < 16 → (0xF3FF#16).getLsbD (15 - k) =
      ([true, true, true, true, false, false] ++ List.replicate 10 true).getD k false) ∧
    16 ≤ (16#5).toNat ∧ (16#5).toNat ≤ 16 := by
  decide +kernel

/-- One valid bit short of a codeword; the reserved prefix; one bit too many. -/
theorem test_witness_VdecRefusals :
    (vlcEncode 0 = .ok [false, false] ∧ (∀ k, k < 2 → (0x0000#16).getLsbD (15 - k) = [false, false].getD k false) ∧
      (1#5).toNat < 2) ∧
    (0xF800#16 &&& 0xF800 = 0xF800 ∧ (16#5).toNat ≤ 16) ∧ 16 < (17#5).toNat := by
  decide +kernel

theorem test_witness_VdecIgnoresInvalidBits :
    ∀ k, k < (2#5).toNat → (0x3FFF#16).getLsbD (15 - k) = (0x0000#16).getLsbD (15 - k) := by
  decide +kernel

theorem test_witness_ChunkIsInvisible :
    (Instr.band4 true 3).isCodeword = true ∧ (∃ t, exec (.band4 true 3) s32 = .next t) ∧
    (∃ t, exec (.vdec 0 0) s32 = .next t) :=
  ⟨rfl, ⟨_, rfl⟩, ⟨_, rfl⟩⟩

theorem test_witness_AppendTransposesTheSample :
    p1Chunk.phase = .opened ∧ p1Chunk.count ≠ (Config.mk .f32 4).maxSamples := by
  decide +kernel

theorem test_witness_AppendReadsTheLowBitsOnly :
    s32.config.shape = .f32 ∧ (0xFFFFFFFF00000001#64).extractLsb' 0 32 = (1#64).extractLsb' 0 32 := by
  decide +kernel

theorem test_witness_AppendChecksPhaseThenCount :
    p1Aligned.phase ≠ .opened ∧ p1Chunk.phase = .opened ∧ p1Chunk.count = (Config.mk .f32 3).maxSamples := by
  decide +kernel

theorem test_witness_PlaneBit :
    answerOf (exec (.append 0x3FFFFFFF) s32) = some (0, 0, 12) ∧ 22 < s32.chunk.ps.length := by
  decide +kernel

/-- Three samples under a limit of three. -/
theorem test_witness_StreamsAfterAppends :
    AllOfWidth .f32 [0x00000000, 0x3F800000, 0xFFFFFFFF] ∧
    [0x00000000#64, 0x3F800000, 0xFFFFFFFF].length ≤ (Config.mk .f32 3).maxSamples.toNat :=
  ⟨by simp [AllOfWidth, Shape.width, Shape.expBits, Shape.mantBits], by decide⟩

theorem test_witness_FinalizeAndRefusals :
    p1Chunk.phase = .opened ∧ p1Aligned.phase ≠ .opened ∧ p1Chunk.phase ≠ .finalized ∧ p1Aligned.phase = .finalized := by
  decide +kernel

theorem test_witness_SerializeEmitsTheStreams :
    p1Aligned.phase = .finalized ∧ p1Aligned.bytes = p1Bytes ∧
    ∀ a ∈ (List.replicate 31 SinkAnswer.ok ++ [SinkAnswer.fail]).take p1Bytes.length, a = .ok := by
  decide +kernel

/-- The failing byte is the first one, and the last one. -/
theorem test_witness_SerializeStopsAtTheFailingByte :
    p1Aligned.phase = .finalized ∧ 0 < p1Aligned.bytes.length ∧ 30 < p1Aligned.bytes.length ∧
    { s32 with sinkAnswers := [.fail] }.sinkAnswers = List.replicate 0 SinkAnswer.ok ++ SinkAnswer.fail :: [] ∧
    (goesOn (exec (.new 0) { s32 with chunk := p1Aligned.inPhase .failed })).map (·.chunk.phase) = some .opened := by
  decide +kernel

theorem test_witness_ContainerLaw :
    AllOfWidth .f32 [0x3F800000, 0xFFFFFFFF] ∧ [0x3F800000#64, 0xFFFFFFFF].length ≤ (Config.mk .f32 2).maxSamples.toNat ∧
    ∀ a ∈ (State.resetFor ⟨.f32, 2⟩).sinkAnswers.take (container .f32 [0x3F800000, 0xFFFFFFFF]).length, a = .ok :=
  ⟨by simp [AllOfWidth, Shape.width, Shape.expBits, Shape.mantBits], by decide, by simp [State.resetFor]⟩

/-- A layout that no encoder makes: a delta of 1000 under F32, and set pad bits (95_test_vectors.md 2.8, last row). -/
def oddLayout : Layout where
  n := 1
  sb := [false, true, true, true, true, true, true, true]
  ds := [1000]
  xpad := []
  pbs := List.replicate 23 [false, false, false, false, false, false, false, true]

theorem test_oddLayout_fits : oddLayout.Fits .f32 where
  sb := by decide +kernel
  ds := by decide +kernel
  range := by decide +kernel
  xpad := by decide +kernel
  planes := by decide +kernel
  plane := by decide +kernel

theorem test_witness_DeserializeDecodesEveryLayout :
    oddLayout.Fits .f32 ∧ oddLayout.n ≤ (Config.mk .f32 1).maxSamples.toNat ∧
    (reading (itemsOf oddLayout.bytes ++ [.fail])).input = itemsOf oddLayout.bytes ++ [.fail] :=
  ⟨test_oddLayout_fits, by decide +kernel, rfl⟩

/-- The shortest chunk, and one with a sample, encoded with success. -/
theorem test_witness_ChunkRoundTrip :
    s32.out = [] ∧ AllOfWidth .f32 [0xFFFFFFFF] ∧
    ((goesOn (runAll (encodeProgram 0 []) s32)).map fun t => (t.rsp.status, t.out)) =
      some ((0 : BitVec 4), [0x00, 0x00, 0x00, 0x00]) ∧
    ((goesOn (runAll (encodeProgram 0 [0xFFFFFFFF]) s32)).map fun t => t.rsp.status) = some (0 : BitVec 4) :=
  ⟨rfl, by simp [AllOfWidth, Shape.width, Shape.expBits, Shape.mantBits], by decide +kernel, by decide +kernel⟩

/-- Cut to nothing, and cut by one byte. -/
theorem test_witness_TruncatedContainerIsCorrupt :
    oddLayout.Fits .f32 ∧ 0 < oddLayout.bytes.length ∧ 29 < oddLayout.bytes.length ∧
    (reading (itemsOf (oddLayout.bytes.take 29))).input = itemsOf (oddLayout.bytes.take 29) ∧
    (reading (itemsOf (oddLayout.bytes.take 0) ++ .fail :: [])).input = itemsOf (oddLayout.bytes.take 0) ++ .fail :: [] :=
  ⟨test_oddLayout_fits, by decide +kernel, by decide +kernel, rfl, rfl⟩

theorem test_witness_CountFieldAboveTheLimit :
    (Config.mk .f32 2).maxSamples.toNat <
      (0x00#8).toNat * 2 ^ 24 + (0x00#8).toNat * 2 ^ 16 + (0x00#8).toNat * 2 ^ 8 + (0x03#8).toNat ∧
    s32.config.maxSamples.toNat = 2 ^ 32 - 1 ∧ (goesOn (exec .deserialize s32)).isSome = true := by
  decide +kernel

/-- The prefix first of all, with three bits after it. -/
theorem test_witness_ReservedPrefixInExponentStream :
    1 < 2 ^ 32 ∧ 1 ≤ (Config.mk .f32 1).maxSamples.toNat ∧ (List.replicate 8 false).length = 8 * ((1 + 7) / 8) ∧
    ([] : List Int).length < 1 ∧ (∀ d ∈ ([] : List Int), InVlcRange d) ∧ [true, false, false].length < 8 ∧
    ((codewords []).length + 5 + [true, false, false].length) % 8 = 0 := by
  decide +kernel

/-- Each status a DESERIALIZE ends in (95_test_vectors.md 2.8). -/
theorem test_witness_DeserializeStatuses :
    answerOf (exec .deserialize (reading (itemsOf [0, 0, 0, 0]))) = some (0, 0, 0) ∧
    answerOf (exec .deserialize (reading (itemsOf oddLayout.bytes ++ [.fail]))) = some (0, 1, 0) ∧
    answerOf (exec .deserialize (reading [])) = some (2, 0, 0) ∧
    answerOf (exec .deserialize (reading [.byte 0, .fail])) = some (3, 0, 0) ∧
    answerOf (exec .deserialize { reading (itemsOf [0, 0, 0, 2]) with config := ⟨.f32, 1⟩ }) = some (5, 0, 0) := by
  decide +kernel

theorem test_witness_StatusTable :
    (goesOn (issueCommand (issuing 0xF 0 0))).map (·.rsp.status) = some 6 ∧
    (goesOn (issueCommand (issuing 0x13 0 0))).map (·.rsp.status) = some 6 := by
  decide +kernel

theorem test_witness_ErrorsArePrecise :
    answerOf (exec .finalize { s32 with chunk := p1Aligned }) = some (4, 0, 0) ∧
    answerOf (exec .serialize s32) = some (4, 0, 0) := by
  decide +kernel

theorem test_witness_OnlyTwoCommandsMoveItems :
    (∃ t, exec .serialize s32 = .next t) ∧ (∃ t, exec .finalize s32 = .next t) ∧
    (goesOn (exec .deserialize (reading [.fail]))).map (·.input) = some [] :=
  ⟨⟨_, rfl⟩, ⟨_, rfl⟩, by decide +kernel⟩

end Sys2Proof.Tests
end

section
/-! PROOFS. Padding, packing and unpacking as 00_scope.md R11 states them. -/

namespace Sys2Proof.Machine

/-- No fewer zeros than `padCount` bring a length to a multiple of 8. -/
theorem padCount_le {n k : Nat} (h : (n + k) % 8 = 0) : padCount n ≤ k := by
  have hmul := add_padCount n
  have hlt := padCount_lt n
  omega

theorem unpackByte_getD (b : Byte) {i : Nat} (h : i < 8) : (unpackByte b).getD i false = b.getLsbD (7 - i) := by
  have hi : i < (unpackByte b).length := by simpa using h
  rw [List.getD_eq_getElem _ _ hi]
  exact bitsN_getElem 8 b.toNat i hi

/-- Bit `8j + i` of the unpacked bytes is bit `7 - i` of byte `j`; past the last byte both are zero. -/
theorem unpack_getD (bs : List Byte) (j : Nat) {i : Nat} (h : i < 8) :
    (unpack bs).getD (8 * j + i) false = (bs.getD j 0).getLsbD (7 - i) := by
  induction bs generalizing j with
  | nil => simp
  | cons b bs ih =>
    cases j with
    | zero =>
      have hi : 8 * 0 + i < (unpackByte b).length := by simpa using h
      rw [unpack_cons, List.getD_append _ _ _ _ hi]
      simpa using unpackByte_getD b h
    | succ j =>
      have hi : (unpackByte b).length ≤ 8 * (j + 1) + i := by simp; omega
      have hsub : 8 * (j + 1) + i - (unpackByte b).length = 8 * j + i := by simp; omega
      rw [unpack_cons, List.getD_append_right _ _ _ _ hi, hsub, ih j, List.getD_cons_succ]

theorem unpackByte_injective : Function.Injective unpackByte := by
  intro a b h
  apply BitVec.eq_of_getLsbD_eq
  intro k hk
  have hbit : (unpackByte a).getD (7 - k) false = (unpackByte b).getD (7 - k) false := by rw [h]
  have hback : 7 - (7 - k) = k := by omega
  rwa [unpackByte_getD a (by omega), unpackByte_getD b (by omega), hback] at hbit

/-- Both sides unpack to the same eight bits. -/
theorem byteOfBits_testBit (b : Byte) :
    byteOfBits (b.toNat.testBit 7) (b.toNat.testBit 6) (b.toNat.testBit 5) (b.toNat.testBit 4) (b.toNat.testBit 3)
      (b.toNat.testBit 2) (b.toNat.testBit 1) (b.toNat.testBit 0) = b :=
  unpackByte_injective (byteOfBits_unpackByte ..)

theorem pack_unpackByte_append (b : Byte) (rest : Bits) : pack (unpackByte b ++ rest) = b :: pack rest :=
  (pack_of_eight ..).trans (congrArg (· :: pack rest) (byteOfBits_testBit b))

@[simp] theorem pack_unpack (bs : List Byte) : pack (unpack bs) = bs := by
  induction bs with
  | nil => rfl
  | cons b bs ih => rw [unpack_cons, pack_unpackByte_append, ih]

theorem unpack_pack {s : Bits} (h : s.length % 8 = 0) : unpack (pack s) = s := by
  induction s using pack.induct with
  | case1 b7 b6 b5 b4 b3 b2 b1 b0 rest ih =>
    have hrest : rest.length % 8 = 0 := by simp only [List.length_cons] at h; omega
    rw [pack_of_eight, unpack_cons, byteOfBits_unpackByte, ih hrest]
    rfl
  | case2 s hshort =>
    match s, hshort, h with
    | [], _, _ => rfl
    | b7 :: b6 :: b5 :: b4 :: b3 :: b2 :: b1 :: b0 :: rest, hshort, _ => exact (hshort _ _ _ _ _ _ _ _ _ rfl).elim

theorem pack_length {s : Bits} (h : s.length % 8 = 0) : (pack s).length = s.length / 8 := by
  have hlen : 8 * (pack s).length = s.length := by rw [← unpack_length, unpack_pack h]
  omega

theorem pack_getD {s : Bits} (h : s.length % 8 = 0) (j : Nat) {i : Nat} (hi : i < 8) :
    ((pack s).getD j 0).getLsbD (7 - i) = s.getD (8 * j + i) false := by
  rw [← unpack_getD (pack s) j hi, unpack_pack h]

/-- Settles O20: packing is determined by being the inverse of unpacking, whose bits are read off byte by byte. -/
theorem packPutsFirstBitHighest : Obligations.PackPutsFirstBitHighest := by
  unfold Obligations.PackPutsFirstBitHighest
  refine ⟨fun s => ⟨padCount s.length, rfl, ?_, fun _ => padCount_le⟩, fun s h => ?_, pack_unpack⟩
  · rw [add_padCount]; exact Nat.mul_mod_right 8 _
  · exact ⟨pack_length h, unpack_pack h, fun j i _ hi => pack_getD h j hi⟩

end Sys2Proof.Machine
end

section
/-! PROOFS. What an instruction and a step can do to the chunk, and the stream lengths of 10_state.md R25 and R26, the
count of R22 and the previous fields of R23 that follow from it. -/

namespace Sys2Proof.Machine

/-! ## What can become of the chunk -/

/-- The chunks that an instruction can leave of chunk `k`. A command that fails keeps it, and so does every instruction
that is none of the encoder's; NEW alone never keeps it. -/
inductive Chunk.Effect (cfg : Config) (k : Chunk) : Instr → Chunk → Prop where
  | keep {i : Instr} (hnew : ∀ hint, i ≠ .new hint) : Chunk.Effect cfg k i k
  | fresh (hint : BitVec 32) : Chunk.Effect cfg k (.new hint) (Chunk.fresh cfg.shape)
  | push (a : BitVec 64) (c : Bits) (hphase : k.phase = .opened) (hcount : k.count ≠ cfg.maxSamples)
      (hcode : appendCodeword cfg.shape (sampleOf cfg.shape a) k = .ok c) :
      Chunk.Effect cfg k (.append a) (k.push cfg.shape (sampleOf cfg.shape a) c)
  | align (hphase : k.phase = .opened) : Chunk.Effect cfg k .finalize k.align
  | leave (p : Phase) (hphase : k.phase = .finalized) (hp : p ≠ .opened) : Chunk.Effect cfg k .serialize (k.inPhase p)

/-- The two paths of FINALIZE (42_chunk_encoder.md R170, R171). -/
theorem execFinalize_cases (s : State) :
    (s.chunk.phase ≠ .opened ∧ execFinalize s = .next (respond .sequenceError 0#64 0#5 s)) ∨
    (s.chunk.phase = .opened ∧ execFinalize s = .next (respond .ok 0#64 0#5 { s with chunk := s.chunk.align })) := by
  by_cases hp : s.chunk.phase = .opened
  · exact .inr ⟨hp, by simp [execFinalize, hp]⟩
  · exact .inl ⟨hp, by simp [execFinalize, hp]⟩

/-- Every instruction keeps the parameters and has one of these effects on the chunk. -/
theorem exec_effect {i : Instr} {s t : State} (h : exec i s = .next t) :
    t.config = s.config ∧ Chunk.Effect s.config s.chunk i t.chunk := by
  cases i with
  | new hint => cases h; exact ⟨rfl, .fresh hint⟩
  | append a =>
    rcases execAppend_cases a s with ⟨-, hx⟩ | ⟨-, -, hx⟩ | ⟨c, hphase, hcount, hcode, hx⟩ | ⟨k, -, hx⟩ <;>
      cases hx.symm.trans h
    · exact ⟨rfl, .keep nofun⟩
    · exact ⟨rfl, .keep nofun⟩
    · exact ⟨rfl, .push a c hphase hcount hcode⟩
    · exact ⟨rfl, .keep nofun⟩
  | finalize =>
    rcases execFinalize_cases s with ⟨-, hx⟩ | ⟨hphase, hx⟩ <;> cases hx.symm.trans h
    · exact ⟨rfl, .keep nofun⟩
    · exact ⟨rfl, .align hphase⟩
  | serialize =>
    rcases execSerialize_cases s with ⟨-, hx⟩ | ⟨used, hphase, hx⟩ | ⟨front, back, used, hphase, -, -, hx⟩ <;>
      cases hx.symm.trans h
    · exact ⟨rfl, .keep nofun⟩
    · exact ⟨rfl, .leave .serialized hphase (by decide)⟩
    · exact ⟨rfl, .leave .failed hphase (by decide)⟩
  | deserialize =>
    rcases execDeserialize_cases s with ⟨vs, items, -, hx⟩ | ⟨k, items, -, hx⟩ <;> cases hx.symm.trans h <;>
      exact ⟨rfl, .keep nofun⟩
  | venc v =>
    rcases execVenc_cases v s with ⟨c, -, hx⟩ | ⟨-, hx⟩ <;> cases hx.symm.trans h <;> exact ⟨rfl, .keep nofun⟩
  | vdec w avail =>
    rcases execVdec_cases w avail s with ⟨-, hx⟩ | ⟨v, len, r, -, -, hx⟩ | ⟨k, r, -, -, hx⟩ <;>
      cases hx.symm.trans h <;> exact ⟨rfl, .keep nofun⟩
  | zero => cases h; exact ⟨rfl, .keep nofun⟩
  | plus1 => cases h; exact ⟨rfl, .keep nofun⟩
  | minus1 => cases h; exact ⟨rfl, .keep nofun⟩
  | band4 neg offset => cases h; exact ⟨rfl, .keep nofun⟩
  | band7 neg offset => cases h; exact ⟨rfl, .keep nofun⟩
  | band10 neg offset => cases h; exact ⟨rfl, .keep nofun⟩
  | reserved => cases h; exact ⟨rfl, .keep nofun⟩

/-- Issuing a command has the effect of the instruction it decodes to; an illegal word keeps the chunk. -/
theorem issueCommand_effect {s t : State} (h : issueCommand s = .next t) :
    t.config = s.config ∧
      (t.chunk = s.chunk ∨ ∃ i, decodeCommand (fetch s) = .ok i ∧ Chunk.Effect s.config s.chunk i t.chunk) := by
  cases hd : decodeCommand (fetch s) with
  | ok i =>
    rw [issueCommand_of_decode hd] at h
    obtain ⟨hcfg, heff⟩ := exec_effect h
    exact ⟨hcfg, .inr ⟨i, rfl, heff⟩⟩
  | error e =>
    rw [issueCommand_of_illegal hd] at h
    cases h
    exact ⟨rfl, .inl rfl⟩

/-- However the command would have ended, a reset during it leaves a fresh chunk (70_reset_and_hazards.md R241). -/
theorem issueThenReset_resets {moved : Nat} {s t : State} (h : issueThenReset moved s = .next t) :
    t.config = s.config ∧ t.chunk = Chunk.fresh s.config.shape := by
  unfold issueThenReset at h
  split at h <;> cases h
  exact ⟨rfl, rfl⟩

/-- A step keeps the parameters. It keeps the chunk, resets it, or has the effect of the instruction that the command
registers decode to. -/
theorem step_effect {s t : State} (h : step s = .next t) :
    t.config = s.config ∧
      (t.chunk = s.chunk ∨ t.chunk = Chunk.fresh s.config.shape ∨
        ∃ i, decodeCommand (fetch s) = .ok i ∧ Chunk.Effect s.config s.chunk i t.chunk) := by
  cases hacts : s.actions with
  | nil =>
    rw [step_idle hacts] at h
    cases h
    exact ⟨rfl, .inl rfl⟩
  | cons a rest =>
    rw [step_act hacts] at h
    cases a with
    | writeCmd v => cases h; exact ⟨rfl, .inl rfl⟩
    | writeArgA v => cases h; exact ⟨rfl, .inl rfl⟩
    | writeArgB v => cases h; exact ⟨rfl, .inl rfl⟩
    | offer items => cases h; exact ⟨rfl, .inl rfl⟩
    | issue =>
      obtain ⟨hcfg, hkept | heff⟩ := issueCommand_effect h
      · exact ⟨hcfg, .inl hkept⟩
      · exact ⟨hcfg, .inr (.inr heff)⟩
    | reset => cases h; exact ⟨rfl, .inr (.inl rfl)⟩
    | issueThenReset moved =>
      obtain ⟨hcfg, hreset⟩ := issueThenReset_resets h
      exact ⟨hcfg, .inr (.inl hreset)⟩

/-- What holds of a fresh chunk and is kept by every effect is kept by every step. -/
theorem step_keeps_chunk {P : Config → Chunk → Prop} (hfresh : ∀ cfg, P cfg (Chunk.fresh cfg.shape))
    (heffect : ∀ {cfg k i k'}, Chunk.Effect cfg k i k' → P cfg k → P cfg k') {s t : State} (h : step s = .next t)
    (hs : P s.config s.chunk) : P t.config t.chunk := by
  obtain ⟨hcfg, hkept | hreset | ⟨i, -, heff⟩⟩ := step_effect h
  · rw [hcfg, hkept]; exact hs
  · rw [hcfg, hreset]; exact hfresh s.config
  · rw [hcfg]; exact heffect heff hs

/-! ## Raw exponents and codeword lengths -/

theorem expBits_le (sh : Shape) : sh.expBits ≤ 11 := by cases sh <;> decide

theorem getExp_lt (sh : Shape) (v : BitVec 64) : getExp sh v < 2 ^ sh.expBits := Nat.mod_lt _ (Nat.two_pow_pos _)

/-- prev_exp has room for the raw exponent of either shape (log 10). -/
theorem toNat_ofNat_getExp (sh : Shape) (v : BitVec 64) : (BitVec.ofNat 11 (getExp sh v)).toNat = getExp sh v := by
  rw [BitVec.toNat_ofNat]
  exact Nat.mod_eq_of_lt ((getExp_lt sh v).trans_le (Nat.pow_le_pow_right two_pos (expBits_le sh)))

theorem codeword_of_vlcEncode {d : Int} {c : Bits} (h : vlcEncode d = .ok c) : codeword d = c := by
  simp only [codeword, h]

theorem codeword_length_mem {d : Int} (h : InVlcRange d) : (codeword d).length ∈ [2, 8, 12, 16] := by
  cases hd : vlcEncode d with
  | ok c =>
    rw [codeword_of_vlcEncode hd]
    simpa using (vlcEncode_ok hd).2
  | error k =>
    obtain ⟨hlo, hhi⟩ := h
    have hbig := (vlcEncode_error hd).2
    omega

/-- The lengths of the codewords of deltas in range: as many as there are deltas, each one of R85, and adding up to the
length of the stream. -/
theorem codewords_lengths {ds : List Int} (h : ∀ d ∈ ds, InVlcRange d) :
    ∃ ls : List Nat, ls.length = ds.length ∧ (∀ l ∈ ls, l ∈ [2, 8, 12, 16]) ∧ (codewords ds).length = ls.sum := by
  refine ⟨ds.map fun d => (codeword d).length, List.length_map _, ?_, List.length_flatMap⟩
  intro l hl
  obtain ⟨d, hd, rfl⟩ := List.mem_map.mp hl
  exact codeword_length_mem (h d hd)

theorem codewords_snoc (ds : List Int) {d : Int} {c : Bits} (h : vlcEncode d = .ok c) :
    codewords (ds ++ [d]) = codewords ds ++ c := by
  simp [codewords, codeword_of_vlcEncode h]

/-! ## A well-formed chunk stays well formed -/

theorem Chunk.Wf.of_fresh (cfg : Config) : (Chunk.fresh cfg.shape).Wf cfg where
  count_le := Nat.zero_le _
  prevExp_lt := Nat.two_pow_pos _
  planes := List.length_replicate
  opened_lengths _ := ⟨rfl, fun _ hp => by simp [List.eq_of_mem_replicate hp], [], rfl, by simp, rfl⟩
  aligned_lengths h := absurd rfl h

/-- Below the limit, the count of an APPEND does not wrap (10_state.md R22). -/
theorem toNat_count_succ {count limit : BitVec 32} (hle : count.toNat ≤ limit.toNat) (hne : count ≠ limit) :
    (count + 1#32).toNat = count.toNat + 1 ∧ count.toNat + 1 ≤ limit.toNat := by
  have hlt : count.toNat < limit.toNat := lt_of_le_of_ne hle (mt BitVec.eq_of_toNat_eq hne)
  have hlimit := limit.isLt
  refine ⟨?_, hlt⟩
  rw [BitVec.toNat_add, BitVec.toNat_ofNat]
  omega

/-- The transposition puts one bit at the end of each plane. -/
theorem length_of_mem_push_ps {sh : Shape} {v : BitVec 64} {c : Bits} {k : Chunk} {n : Nat}
    (h : ∀ p ∈ k.ps, p.length = n) : ∀ p ∈ (k.push sh v c).ps, p.length = n + 1 := by
  intro p hp
  obtain ⟨⟨q, i⟩, hq, rfl⟩ := List.mem_map.mp hp
  simp [h q (List.fst_mem_of_mem_zipIdx hq)]

theorem Chunk.Wf.push {cfg : Config} {k : Chunk} {v : BitVec 64} {c : Bits} (hk : k.Wf cfg) (hphase : k.phase = .opened)
    (hcount : k.count ≠ cfg.maxSamples) (hcode : appendCodeword cfg.shape v k = .ok c) :
    (k.push cfg.shape v c).Wf cfg := by
  obtain ⟨hsucc, hlimit⟩ := toNat_count_succ hk.count_le hcount
  obtain ⟨hss, hps, ds, hlen, hrange, hxs⟩ := hk.opened_lengths hphase
  have hd : InVlcRange (expDiff cfg.shape k.prevExp.toNat (getExp cfg.shape v)) := by
    have habs := (vlcEncode_ok hcode).1
    constructor <;> omega
  have hds : ∀ d ∈ ds ++ [expDiff cfg.shape k.prevExp.toNat (getExp cfg.shape v)], InVlcRange d :=
    List.forall_mem_append.mpr ⟨hrange, List.forall_mem_singleton.mpr hd⟩
  exact
    { count_le := by rw [push_count, hsucc]; exact hlimit
      prevExp_lt := by rw [push_prevExp, toNat_ofNat_getExp]; exact getExp_lt _ _
      planes := by simp [hk.planes]
      opened_lengths := fun _ =>
        ⟨by simp [hsucc, hss], by rw [push_count, hsucc]; exact length_of_mem_push_ps hps, _, by simp [hsucc, hlen], hds,
          by rw [push_xs, hxs, codewords_snoc ds hcode]⟩
      aligned_lengths := fun h => absurd hphase h }

theorem Chunk.Wf.align {cfg : Config} {k : Chunk} (hk : k.Wf cfg) (hphase : k.phase = .opened) : k.align.Wf cfg := by
  obtain ⟨hss, hps, ds, hlen, hrange, hxs⟩ := hk.opened_lengths hphase
  refine ⟨hk.count_le, hk.prevExp_lt, by simp [hk.planes], nofun, fun _ => ⟨by simp [hss], ?_, ds, hlen, hrange, ?_⟩⟩
  · intro p hp
    obtain ⟨q, hq, rfl⟩ := List.mem_map.mp hp
    simp [hps q hq]
  · have hpad := add_padCount (codewords ds).length
    rw [align_xs, hxs, pad8, ← hpad, Nat.add_sub_cancel_left]

theorem Chunk.Wf.inPhase {cfg : Config} {k : Chunk} {p : Phase} (hk : k.Wf cfg) (hphase : k.phase ≠ .opened)
    (hp : p ≠ .opened) : (k.inPhase p).Wf cfg :=
  ⟨hk.count_le, hk.prevExp_lt, hk.planes, fun h => absurd h hp, fun _ => hk.aligned_lengths hphase⟩

theorem Chunk.Effect.wf {cfg : Config} {k k' : Chunk} {i : Instr} (h : Chunk.Effect cfg k i k') (hk : k.Wf cfg) :
    k'.Wf cfg := by
  cases h with
  | keep => exact hk
  | fresh => exact .of_fresh cfg
  | push a c hphase hcount hcode => exact hk.push hphase hcount hcode
  | align hphase => exact hk.align hphase
  | leave p hphase hp => exact hk.inPhase (by simp [hphase]) hp

/-- The chunk's part of the invariant (10_state.md R22 to R26) is kept by every step. -/
theorem step_keeps_chunk_wf {s t : State} (h : step s = .next t) (hs : s.chunk.Wf s.config) : t.chunk.Wf t.config :=
  step_keeps_chunk (P := fun cfg k => k.Wf cfg) .of_fresh Chunk.Effect.wf h hs

/-- Settles O14: the chunk after the step is well formed, and its XS is made of `count` codewords. -/
theorem openStreamLengths : Obligations.OpenStreamLengths := by
  unfold Obligations.OpenStreamLengths
  intro s t hs h hphase
  obtain ⟨hss, hps, ds, hlen, hrange, hxs⟩ := (step_keeps_chunk_wf h hs.chunk).opened_lengths hphase
  obtain ⟨ls, hls, hmem, hsum⟩ := codewords_lengths hrange
  exact ⟨hss, hps, ls, hls.trans hlen, hmem, by rw [hxs, hsum]⟩

/-- Settles O15: as for O14, with XS filled up to whole bytes. -/
theorem alignedStreamLengths : Obligations.AlignedStreamLengths := by
  unfold Obligations.AlignedStreamLengths
  intro s t hs h hphase
  obtain ⟨hss, hps, ds, hlen, hrange, hxs⟩ := (step_keeps_chunk_wf h hs.chunk).aligned_lengths hphase
  obtain ⟨ls, hls, hmem, hsum⟩ := codewords_lengths hrange
  refine ⟨hss, hps, ls, hls.trans hlen, hmem, ?_⟩
  have hpad := add_padCount (codewords ds).length
  calc t.chunk.xs.length = 8 * ceilDiv8 (codewords ds).length := by
        rw [hxs, List.length_append, List.length_replicate]; omega
    _ = 8 * ((ls.sum + 7) / 8) := by rw [hsum, ceilDiv8]

/-! ## count and the fields of the sample before -/

/-- An APPEND whose status is OK has transposed its sample into the chunk (42_chunk_encoder.md R163). -/
theorem exec_append_ok {a : BitVec 64} {s t : State} (h : exec (.append a) s = .next t) (hok : t.rsp.status = 0) :
    s.chunk.count ≠ s.config.maxSamples ∧
      ∃ c, t.chunk = s.chunk.push s.config.shape (sampleOf s.config.shape a) c := by
  rcases execAppend_cases a s with ⟨-, hx⟩ | ⟨-, -, hx⟩ | ⟨c, -, hcount, -, hx⟩ | ⟨k, hcode, hx⟩ <;>
    cases hx.symm.trans h
  · exact absurd hok (by decide : (4#4 : BitVec 4) ≠ 0)
  · exact absurd hok (by decide : (5#4 : BitVec 4) ≠ 0)
  · exact ⟨hcount, c, rfl⟩
  · obtain ⟨rfl, -⟩ := vlcEncode_error hcode
    exact absurd hok (by decide : (1#4 : BitVec 4) ≠ 0)

theorem exec_append_at_limit (a : BitVec 64) {s : State} (hphase : s.chunk.phase = .opened)
    (hcount : s.chunk.count = s.config.maxSamples) :
    exec (.append a) s = .next (respond .countOverflow 0#64 0#5 s) := by
  simp [exec, execAppend, hphase, hcount]

/-- NEW and APPEND alone write count, prev_sign and prev_exp (10_state.md R22, R23). -/
theorem Chunk.Effect.keeps_fields {cfg : Config} {k k' : Chunk} {i : Instr} (h : Chunk.Effect cfg k i k')
    (hnew : ∀ hint, i ≠ .new hint) (happend : ∀ a, i ≠ .append a) :
    k'.count = k.count ∧ k'.prevSign = k.prevSign ∧ k'.prevExp = k.prevExp := by
  cases h with
  | keep => exact ⟨rfl, rfl, rfl⟩
  | fresh hint => exact absurd rfl (hnew hint)
  | push a => exact absurd rfl (happend a)
  | align => exact ⟨rfl, rfl, rfl⟩
  | leave => exact ⟨rfl, rfl, rfl⟩

theorem Chunk.Effect.count_le {cfg : Config} {k k' : Chunk} {i : Instr} (h : Chunk.Effect cfg k i k')
    (hk : k.count.toNat ≤ cfg.maxSamples.toNat) : k'.count.toNat ≤ cfg.maxSamples.toNat := by
  cases h with
  | keep => exact hk
  | fresh => exact Nat.zero_le _
  | push a c hphase hcount hcode =>
    obtain ⟨hsucc, hlimit⟩ := toNat_count_succ hk hcount
    rw [push_count, hsucc]; exact hlimit
  | align => exact hk
  | leave => exact hk

theorem step_keeps_count_le {s t : State} (h : step s = .next t)
    (hs : s.chunk.count.toNat ≤ s.config.maxSamples.toNat) : t.chunk.count.toNat ≤ t.config.maxSamples.toNat :=
  step_keeps_chunk (P := fun cfg k => k.count.toNat ≤ cfg.maxSamples.toNat) (fun _ => Nat.zero_le _)
    Chunk.Effect.count_le h hs

/-- Settles O16: only a push adds to the count, and it is refused at the limit. -/
theorem countNeverWraps : Obligations.CountNeverWraps := by
  unfold Obligations.CountNeverWraps
  refine ⟨?_, ?_, ?_, ?_, ?_⟩
  · intro hint s t h
    cases h; rfl
  · intro a s t hs h hok
    obtain ⟨hcount, c, hpush⟩ := exec_append_ok h hok
    rw [hpush, push_count]
    exact (toNat_count_succ hs hcount).1
  · intro a s hphase hcount
    exact ⟨_, exec_append_at_limit a hphase hcount, rfl, rfl⟩
  · intro i s t h hnew happend
    exact ((exec_effect h).2.keeps_fields hnew happend).1
  · intro s t hs h
    have hmax := t.config.maxSamples.isLt
    exact ⟨step_keeps_count_le h hs, by omega⟩

/-- Settles O17: a push writes both fields, and the exponent fits its register. -/
theorem prevFieldsFollowLastSample : Obligations.PrevFieldsFollowLastSample := by
  unfold Obligations.PrevFieldsFollowLastSample
  refine ⟨?_, ?_, ?_⟩
  · intro hint s t h
    cases h; exact ⟨rfl, rfl⟩
  · intro a s t h hok
    obtain ⟨-, c, hpush⟩ := exec_append_ok h hok
    rw [hpush, push_prevSign, push_prevExp, toNat_ofNat_getExp]
    exact ⟨rfl, rfl, getExp_lt _ _⟩
  · intro i s t h hnew happend
    exact ((exec_effect h).2.keeps_fields hnew happend).2

end Sys2Proof.Machine
end

section
/-! PROOFS. The length of a container (20_memory.md R53, R55): the length of each stream, and that of a packed stream. -/

namespace Sys2Proof.Machine

@[simp] theorem signStream_length (sh : Shape) (vs : List (BitVec 64)) : (signStream sh vs).length = vs.length := by
  simp [signStream]

@[simp] theorem planeStream_length (sh : Shape) (vs : List (BitVec 64)) (i : Nat) :
    (planeStream sh vs i).length = vs.length := by
  simp [planeStream]

/-- A padded stream is a whole number of bytes, so that packing loses no bit (20_memory.md R56). -/
@[simp] theorem pack_pad8_length (s : Bits) : (pack (pad8 s)).length = ceilDiv8 s.length := by
  rw [pack_length (by rw [pad8_length]; exact Nat.mul_mod_right 8 _), pad8_length, Nat.mul_div_cancel_left _ (by decide)]

theorem container_length (sh : Shape) (vs : List (BitVec 64)) :
    (container sh vs).length =
      4 + ceilDiv8 vs.length + ceilDiv8 (codewords (deltas sh vs)).length + sh.mantBits * ceilDiv8 vs.length := by
  simp [container, List.length_flatMap, Nat.add_assoc]

/-- Without samples every stream is empty, so only the count field is left. -/
theorem container_nil (sh : Shape) : container sh [] = be32 0 := by
  have hsign : signStream sh [] = [] := rfl
  have hexp : codewords (deltas sh []) = [] := rfl
  have hplane (i : Nat) : planeStream sh [] i = [] := rfl
  have hpack : pack [] = [] := rfl
  simp [container, hsign, hexp, hplane, hpack]

/-- Settles O48: the parts' lengths add up, and the empty container is the count field alone. -/
theorem containerLength : Obligations.ContainerLength := by
  unfold Obligations.ContainerLength
  intro sh vs
  refine ⟨container_length sh vs, fun h => ?_⟩
  obtain rfl := List.eq_nil_of_length_eq_zero h
  exact container_nil sh

end Sys2Proof.Machine
end

section
/-! PROOFS. The codeword classes of a 16-bit window (30_encoding.md R91). -/

namespace Sys2Proof

/-- A mask whose bits are all among the first `n` tests those bits alone. -/
theorem and_append_zero_eq_iff {n k : Nat} (w : BitVec (n + k)) (mask value : BitVec n) :
    w &&& (mask ++ 0#k) = value ++ 0#k ↔ w.extractLsb' k n &&& mask = value := by
  have hmasked : w &&& (mask ++ 0#k) = (w.extractLsb' k n &&& mask) ++ 0#k := by
    apply BitVec.eq_of_getLsbD_eq
    intro i hi
    by_cases hk : i < k
    · simp [BitVec.getLsbD_append, hk]
    · have hback : k + (i - k) = i := by omega
      have hlt : i - k < n := by omega
      simp [BitVec.getLsbD_append, hk, hback, hlt]
  rw [hmasked]
  refine ⟨fun h => ?_, fun h => by rw [h]⟩
  have hfront := congrArg (BitVec.extractLsb' k n) h
  simpa [BitVec.extractLsb'_append_eq_left] using hfront

/-- A mask of the first `n` bits compares the prefix of length `n`. -/
theorem and_prefixMask_eq_iff {n k : Nat} (w : BitVec (n + k)) (pre : BitVec n) :
    w &&& (BitVec.allOnes n ++ 0#k) = pre ++ 0#k ↔ w.extractLsb' k n = pre := by
  rw [and_append_zero_eq_iff, BitVec.and_allOnes]

/-- A window that matches a row matches, under a part of the row's mask, that part of the row's value. -/
theorem matches_part {n : Nat} {w mask value : BitVec n} (part : BitVec n) (h : w &&& mask = value) :
    w &&& (mask &&& part) = value &&& part := by
  rw [← h, BitVec.and_assoc]

/-- The decoder of windows tries the rows of R91 in their order. -/
theorem decodeWindow_eq (w : BitVec 16) :
    decodeWindow w =
      if w &&& 0xC000 = 0x0000 then .zero
      else if w &&& 0xC000 = 0x4000 then .plus1
      else if w &&& 0xC000 = 0x8000 then .minus1
      else if w &&& 0xE000 = 0xC000 then .band4 (w.getLsbD 12) (w.extractLsb' 8 4)
      else if w &&& 0xF000 = 0xE000 then .band7 (w.getLsbD 11) (w.extractLsb' 4 7)
      else if w &&& 0xF800 = 0xF000 then .band10 (w.getLsbD 10) (w.extractLsb' 0 10)
      else .reserved := by
  have hzero : w &&& 0xC000 = 0x0000 ↔ w.extractLsb' 14 2 = 0b00#2 :=
    and_prefixMask_eq_iff (n := 2) (k := 14) w 0b00#2
  have hplus1 : w &&& 0xC000 = 0x4000 ↔ w.extractLsb' 14 2 = 0b01#2 :=
    and_prefixMask_eq_iff (n := 2) (k := 14) w 0b01#2
  have hminus1 : w &&& 0xC000 = 0x8000 ↔ w.extractLsb' 14 2 = 0b10#2 :=
    and_prefixMask_eq_iff (n := 2) (k := 14) w 0b10#2
  have hband4 : w &&& 0xE000 = 0xC000 ↔ w.extractLsb' 13 3 = 0b110#3 :=
    and_prefixMask_eq_iff (n := 3) (k := 13) w 0b110#3
  have hband7 : w &&& 0xF000 = 0xE000 ↔ w.extractLsb' 12 4 = 0b1110#4 :=
    and_prefixMask_eq_iff (n := 4) (k := 12) w 0b1110#4
  have hband10 : w &&& 0xF800 = 0xF000 ↔ w.extractLsb' 11 5 = 0b11110#5 :=
    and_prefixMask_eq_iff (n := 5) (k := 11) w 0b11110#5
  simp only [hzero, hplus1, hminus1, hband4, hband7, hband10, decodeWindow]

/-- After four ones the fifth bit decides between the last band and the reserved prefix. -/
theorem decodeWindow_of_four_ones {w : BitVec 16} (h : w &&& 0xF000#16 = 0xF000#16) :
    decodeWindow w =
      if w &&& 0xF800 = 0xF000 then .band10 (w.getLsbD 10) (w.extractLsb' 0 10) else .reserved := by
  have htwo : w &&& 0xC000#16 = 0xC000#16 := matches_part 0xC000#16 h
  have hthree : w &&& 0xE000#16 = 0xE000#16 := matches_part 0xE000#16 h
  simp [decodeWindow_eq, h, htwo, hthree]

/-- The rows of R91 over the first five bits of a window, which decide its class (R89). -/
def prefixRows : List (BitVec 5 × BitVec 5) :=
  [(0b00000, 0b11000), (0b01000, 0b11000), (0b10000, 0b11000), (0b11000, 0b11100), (0b11100, 0b11110),
   (0b11110, 0b11111), (0b11111, 0b11111)]

theorem windowRows_eq_map : windowRows = prefixRows.map fun r => (r.1 ++ 0#11, r.2 ++ 0#11) := by decide

/-- The rows that a window matches are those that its first five bits match. -/
theorem windowRows_filter_length (w : BitVec 16) :
    (windowRows.filter fun r => w &&& r.2 == r.1).length =
      (prefixRows.filter fun r => w.extractLsb' 11 5 &&& r.2 == r.1).length := by
  have hrow (r : BitVec 5 × BitVec 5) :
      (w &&& (r.2 ++ 0#11) == r.1 ++ 0#11) = (w.extractLsb' 11 5 &&& r.2 == r.1) := by
    rw [Bool.eq_iff_iff, beq_iff_eq, beq_iff_eq]
    exact and_append_zero_eq_iff (k := 11) w r.2 r.1
  rw [windowRows_eq_map, List.filter_map, List.length_map]
  simp only [Function.comp_def, hrow]

/-- Every five bits match one row of the seven. -/
theorem prefixRows_filter_length : ∀ p : BitVec 5, (prefixRows.filter fun r => p &&& r.2 == r.1).length = 1 := by
  decide

/-- Settles O5: the first five bits match one row, and a longer prefix rules out the rows that are tried before it. -/
theorem windowClassesPartition : Obligations.WindowClassesPartition := by
  unfold Obligations.WindowClassesPartition
  intro w
  refine ⟨(windowRows_filter_length w).trans (prefixRows_filter_length _), ?_, ?_, ?_, ?_, ?_, ?_, ?_⟩
  · intro (h : w &&& 0xC000#16 = 0x0000#16)
    simp [decodeWindow_eq, h]
  · intro (h : w &&& 0xC000#16 = 0x4000#16)
    simp [decodeWindow_eq, h]
  · intro (h : w &&& 0xC000#16 = 0x8000#16)
    simp [decodeWindow_eq, h]
  · intro (h : w &&& 0xE000#16 = 0xC000#16)
    have htwo : w &&& 0xC000#16 = 0xC000#16 := matches_part 0xC000#16 h
    simp [decodeWindow_eq, h, htwo]
  · intro (h : w &&& 0xF000#16 = 0xE000#16)
    have htwo : w &&& 0xC000#16 = 0xC000#16 := matches_part 0xC000#16 h
    have hthree : w &&& 0xE000#16 = 0xE000#16 := matches_part 0xE000#16 h
    simp [decodeWindow_eq, h, htwo, hthree]
  · intro (h : w &&& 0xF800#16 = 0xF000#16)
    have hfour : w &&& 0xF000#16 = 0xF000#16 := matches_part 0xF000#16 h
    simp [decodeWindow_of_four_ones hfour, h]
  · intro (h : w &&& 0xF800#16 = 0xF800#16)
    have hfour : w &&& 0xF000#16 = 0xF000#16 := matches_part 0xF000#16 h
    simp [decodeWindow_of_four_ones hfour, h]

end Sys2Proof
end

section
/-! PROOFS. The codewords of 30_encoding.md R85 as a relation, which the encoder and the decoder of every reader meet;
the length of a codeword (R89) and the code's being one-to-one and complete (R92) follow from it. -/

namespace Sys2Proof.Machine

/-! ## The codewords -/

/-- The three bands of R85: the number of offset bits, the least magnitude, and the prefix. -/
inductive IsBand : Nat → Nat → Bits → Prop where
  | band4 : IsBand 4 2 [true, true, false]
  | band7 : IsBand 7 18 [true, true, true, false]
  | band10 : IsBand 10 146 [true, true, true, true, false]

/-- A value and its codeword (R85 to R88). -/
inductive CodewordOf : Int → Bits → Prop where
  | zero : CodewordOf 0 [false, false]
  | plus1 : CodewordOf 1 [false, true]
  | minus1 : CodewordOf (-1) [true, false]
  | band {n base : Nat} {pre : Bits} (hband : IsBand n base pre) (neg : Bool) {off : Nat} (hoff : off < 2 ^ n) :
      CodewordOf (bandValue base neg off) (pre ++ neg :: bitsN n off)

theorem IsBand.two_le {n base : Nat} {pre : Bits} (h : IsBand n base pre) : 2 ≤ base := by
  cases h <;> decide

@[simp] theorem bandValue_natAbs (base : Nat) (neg : Bool) (off : Nat) :
    (bandValue base neg off).natAbs = base + off := by
  cases neg
  · exact Int.natAbs_natCast _
  · exact (Int.natAbs_neg _).trans (Int.natAbs_natCast _)

theorem bandValue_neg_iff {base : Nat} (h : 2 ≤ base) (neg : Bool) (off : Nat) :
    bandValue base neg off < 0 ↔ neg = true := by
  cases neg with
  | false => simp [bandValue]; omega
  | true => simp [bandValue]; omega

/-- The sign and the distance of the magnitude from the band's least one give the value back. -/
theorem bandValue_of_le_natAbs {base : Nat} {v : Int} (h : base ≤ v.natAbs) :
    bandValue base (decide (v < 0)) (v.natAbs - base) = v := by
  unfold bandValue
  split
  next hneg =>
    have hlt : v < 0 := by simpa using hneg
    omega
  next hneg =>
    have hge : 0 ≤ v := by simpa using hneg
    omega

theorem exists_codewordOf {v : Int} (h : v.natAbs ≤ 1169) : ∃ c, CodewordOf v c := by
  have hband {n base : Nat} {pre : Bits} (hb : IsBand n base pre) (hlo : base ≤ v.natAbs)
      (hhi : v.natAbs - base < 2 ^ n) : ∃ c, CodewordOf v c :=
    ⟨_, by simpa only [bandValue_of_le_natAbs hlo] using CodewordOf.band hb (decide (v < 0)) hhi⟩
  have hcases : v = 0 ∨ v = 1 ∨ v = -1 ∨ (2 ≤ v.natAbs ∧ v.natAbs < 18) ∨
      (18 ≤ v.natAbs ∧ v.natAbs < 146) ∨ 146 ≤ v.natAbs := by omega
  rcases hcases with rfl | rfl | rfl | ⟨hlo, hhi⟩ | ⟨hlo, hhi⟩ | hlo
  · exact ⟨_, .zero⟩
  · exact ⟨_, .plus1⟩
  · exact ⟨_, .minus1⟩
  · exact hband .band4 hlo (by omega)
  · exact hband .band7 hlo (by omega)
  · exact hband .band10 hlo (by omega)

/-! ## The encoder -/

/-- In a band the encoder gives the prefix, the sign and the offset (41_varint_codec.md R130). -/
theorem vlcEncode_of_isBand {n base : Nat} {pre : Bits} (hband : IsBand n base pre) {v : Int} (hlo : base ≤ v.natAbs)
    (hhi : v.natAbs < base + 2 ^ n) :
    vlcEncode v = .ok (pre ++ decide (v < 0) :: bitsN n (v.natAbs - base)) := by
  have htwo := hband.two_le
  have hzero : v ≠ 0 := by omega
  have hplus1 : v ≠ 1 := by omega
  have hminus1 : v ≠ -1 := by omega
  cases hband with
  | band4 =>
    have hmag : v.natAbs ≤ 17 := by omega
    simp [vlcEncode, hzero, hplus1, hminus1, hmag]
  | band7 =>
    have hover : ¬ v.natAbs ≤ 17 := by omega
    have hmag : v.natAbs ≤ 145 := by omega
    simp [vlcEncode, hzero, hplus1, hminus1, hover, hmag]
  | band10 =>
    have hover4 : ¬ v.natAbs ≤ 17 := by omega
    have hover7 : ¬ v.natAbs ≤ 145 := by omega
    have hmag : v.natAbs ≤ 1169 := by omega
    simp [vlcEncode, hzero, hplus1, hminus1, hover4, hover7, hmag]

theorem CodewordOf.vlcEncode_eq {v : Int} {c : Bits} (h : CodewordOf v c) : vlcEncode v = .ok c := by
  cases h with
  | zero => rfl
  | plus1 => rfl
  | minus1 => rfl
  | band hband neg hoff =>
    rw [vlcEncode_of_isBand hband (by simp) (by simpa using hoff)]
    simp [bandValue_neg_iff hband.two_le]

/-- The encoder gives the codeword of R85 and nothing else. -/
theorem vlcEncode_eq_ok_iff {v : Int} {c : Bits} : vlcEncode v = .ok c ↔ CodewordOf v c := by
  refine ⟨fun h => ?_, CodewordOf.vlcEncode_eq⟩
  obtain ⟨c', hc'⟩ := exists_codewordOf (vlcEncode_ok h).1
  cases h.symm.trans hc'.vlcEncode_eq
  exact hc'

/-- Settles O27: the prefix of each class fixes the length. -/
theorem lengthFromFirstBits : Obligations.LengthFromFirstBits := by
  unfold Obligations.LengthFromFirstBits
  intro v c h
  cases vlcEncode_eq_ok_iff.mp h with
  | zero => simp
  | plus1 => simp
  | minus1 => simp
  | band hband neg hoff => cases hband <;> simp

/-! ## Bit sequences as offsets -/

/-- Bits above the first `n` do not count in `bitsN n`. -/
theorem bitsN_two_pow_mul_add (n a : Nat) {u : Nat} (h : u < 2 ^ n) : bitsN n (2 ^ n * a + u) = bitsN n u := by
  refine List.ext_getElem (by simp) fun k hk _ => ?_
  have hlt : n - 1 - k < n := by simp at hk; omega
  rw [bitsN_getElem, bitsN_getElem, Nat.testBit_two_pow_mul_add _ h, if_pos hlt]

/-- Every bit sequence is the offset of some number. -/
theorem exists_eq_bitsN (bs : Bits) : ∃ u < 2 ^ bs.length, bs = bitsN bs.length u := by
  induction bs with
  | nil => exact ⟨0, by simp, rfl⟩
  | cons b bs ih =>
    obtain ⟨u, hu, hbs⟩ := ih
    refine ⟨2 ^ bs.length * b.toNat + u, ?_, ?_⟩
    · have hb : 2 ^ bs.length * b.toNat ≤ 2 ^ bs.length * 1 := Nat.mul_le_mul_left _ b.toNat_le
      rw [List.length_cons, pow_succ]
      omega
    · rw [List.length_cons, bitsN, bitsN_two_pow_mul_add _ _ hu, ← hbs, Nat.testBit_two_pow_mul_add _ hu]
      cases b <;> simp

/-! ## The decoder, over any reader -/

section
variable {σ : Type} {read1 : σ → ReadResult σ Bool}

theorem readBand_of_delivers {n base plen off : Nat} {neg : Bool} {r r' : σ} (hoff : off < 2 ^ n)
    (h : Delivers read1 r (neg :: bitsN n off) r') :
    readBand read1 n base plen r = .ok (bandValue base neg off, plen + 1 + n) r' := by
  obtain ⟨r1, hneg, h⟩ := h
  simp [readBand, hneg, readOffset_of_delivers n 0 off h, Nat.mod_eq_of_lt hoff]

/-- After the prefix of a band the decoder reads the sign and the offset of that band (41_varint_codec.md R131). -/
theorem vlcDecode_of_isBand {n base : Nat} {pre : Bits} (hband : IsBand n base pre) {r r' : σ}
    (h : Delivers read1 r pre r') : vlcDecode read1 r = readBand read1 n base pre.length r' := by
  cases hband with
  | band4 =>
    obtain ⟨_, h0, _, h1, _, h2, rfl⟩ := h
    simp [vlcDecode, h0, h1, h2]
  | band7 =>
    obtain ⟨_, h0, _, h1, _, h2, _, h3, rfl⟩ := h
    simp [vlcDecode, h0, h1, h2, h3]
  | band10 =>
    obtain ⟨_, h0, _, h1, _, h2, _, h3, _, h4, rfl⟩ := h
    simp [vlcDecode, h0, h1, h2, h3, h4]

/-- A reader that delivers a codeword has its value decoded, and stands right after it. -/
theorem CodewordOf.vlcDecode_eq {v : Int} {c : Bits} (hc : CodewordOf v c) {r r' : σ} (h : Delivers read1 r c r') :
    vlcDecode read1 r = .ok (v, c.length) r' := by
  cases hc with
  | zero => obtain ⟨_, h0, _, h1, rfl⟩ := h; simp [vlcDecode, h0, h1]
  | plus1 => obtain ⟨_, h0, _, h1, rfl⟩ := h; simp [vlcDecode, h0, h1]
  | minus1 => obtain ⟨_, h0, _, h1, rfl⟩ := h; simp [vlcDecode, h0, h1]
  | band hband neg hoff =>
    obtain ⟨r1, hpre, hrest⟩ := delivers_append.mp h
    rw [vlcDecode_of_isBand hband hpre, readBand_of_delivers hoff hrest]
    simp [Nat.add_assoc, Nat.add_comm 1]

theorem readOffset_delivers {n off u : Nat} {r r' : σ} (h : readOffset read1 n off r = .ok u r') :
    ∃ bs : Bits, bs.length = n ∧ Delivers read1 r bs r' := by
  induction n generalizing off r with
  | zero => cases h; exact ⟨[], rfl, rfl⟩
  | succ n ih =>
    obtain ⟨b, r1, hb, h⟩ := andThen_eq_ok.mp h
    obtain ⟨bs, hlen, hbs⟩ := ih h
    exact ⟨b :: bs, by simp [hlen], r1, hb, hbs⟩

/-- What `readBand` succeeds on is a sign and an offset of `n` bits. -/
theorem readBand_delivers {n base plen L : Nat} {v : Int} {r r' : σ}
    (h : readBand read1 n base plen r = .ok (v, L) r') :
    ∃ neg off, off < 2 ^ n ∧ v = bandValue base neg off ∧ L = plen + 1 + n ∧
      Delivers read1 r (neg :: bitsN n off) r' := by
  obtain ⟨neg, r1, hneg, h⟩ := andThen_eq_ok.mp h
  obtain ⟨u, r2, hu, h⟩ := andThen_eq_ok.mp h
  cases h
  obtain ⟨bs, rfl, hbs⟩ := readOffset_delivers hu
  obtain ⟨off, hoff, heq⟩ := exists_eq_bitsN bs
  rw [heq] at hbs
  have huo : u = off := by
    simpa [Nat.mod_eq_of_lt hoff] using hu.symm.trans (readOffset_of_delivers _ 0 off hbs)
  exact ⟨neg, off, hoff, by rw [huo], rfl, r1, hneg, hbs⟩

/-- A band read after its prefix was delivered makes up a codeword. -/
theorem codewordOf_of_readBand {n base L : Nat} {pre : Bits} (hband : IsBand n base pre) {v : Int} {r r1 r' : σ}
    (hpre : Delivers read1 r pre r1) (h : readBand read1 n base pre.length r1 = .ok (v, L) r') :
    ∃ c, CodewordOf v c ∧ c.length = L ∧ Delivers read1 r c r' := by
  obtain ⟨neg, off, hoff, rfl, rfl, hd⟩ := readBand_delivers h
  exact ⟨_, .band hband neg hoff, by simp [Nat.add_assoc, Nat.add_comm 1], hpre.append hd⟩

/-- What the decoder accepts is a codeword, and it has read that codeword exactly. -/
theorem vlcDecode_delivers {v : Int} {L : Nat} {r r' : σ} (h : vlcDecode read1 r = .ok (v, L) r') :
    ∃ c, CodewordOf v c ∧ c.length = L ∧ Delivers read1 r c r' := by
  obtain ⟨b0, r0, h0, h⟩ := andThen_eq_ok.mp h
  obtain ⟨b1, r1, h1, h⟩ := andThen_eq_ok.mp h
  match b0, b1 with
  | false, false => cases h; exact ⟨_, .zero, rfl, r0, h0, _, h1, rfl⟩
  | false, true => cases h; exact ⟨_, .plus1, rfl, r0, h0, _, h1, rfl⟩
  | true, false => cases h; exact ⟨_, .minus1, rfl, r0, h0, _, h1, rfl⟩
  | true, true =>
    obtain ⟨b2, r2, h2, h⟩ := andThen_eq_ok.mp h
    cases b2 with
    | false => exact codewordOf_of_readBand .band4 ⟨r0, h0, r1, h1, r2, h2, rfl⟩ h
    | true =>
      obtain ⟨b3, r3, h3, h⟩ := andThen_eq_ok.mp h
      cases b3 with
      | false => exact codewordOf_of_readBand .band7 ⟨r0, h0, r1, h1, r2, h2, r3, h3, rfl⟩ h
      | true =>
        obtain ⟨b4, r4, h4, h⟩ := andThen_eq_ok.mp h
        cases b4 with
        | false => exact codewordOf_of_readBand .band10 ⟨r0, h0, r1, h1, r2, h2, r3, h3, r4, h4, rfl⟩ h
        | true => cases h

end

/-! ## The decoder over a plain bit sequence -/

theorem delivers_bitsRead1_iff {bits bs rest : Bits} : Delivers bitsRead1 bits bs rest ↔ bits = bs ++ rest := by
  refine ⟨fun h => ?_, fun h => h ▸ bitsRead1_delivers bs rest⟩
  induction bs generalizing bits with
  | nil => exact h
  | cons b bs ih =>
    obtain ⟨r1, hb, h⟩ := h
    cases bits with
    | nil => cases hb
    | cons b' bits => cases hb; rw [ih h, List.cons_append]

/-- Over a plain bit sequence the decoder reads a codeword in front, and accepts nothing else. -/
theorem vlcDecode_bitsRead1_eq_ok_iff {bits rest : Bits} {v : Int} {L : Nat} :
    vlcDecode bitsRead1 bits = .ok (v, L) rest ↔ ∃ c, CodewordOf v c ∧ c.length = L ∧ bits = c ++ rest := by
  constructor
  · intro h
    obtain ⟨c, hc, hlen, hd⟩ := vlcDecode_delivers h
    exact ⟨c, hc, hlen, delivers_bitsRead1_iff.mp hd⟩
  · rintro ⟨c, hc, rfl, rfl⟩
    exact hc.vlcDecode_eq (bitsRead1_delivers c rest)

/-- After the prefix of a band, bits enough for the sign and the offset complete a codeword. -/
theorem exists_codewordOf_of_isBand {n base : Nat} {pre : Bits} (hband : IsBand n base pre) {bits : Bits}
    (h : n < bits.length) : ∃ v c rest, CodewordOf v c ∧ pre ++ bits = c ++ rest := by
  cases bits with
  | nil => cases h
  | cons neg bits =>
    have hlen : (bits.take n).length = n := List.length_take_of_le (Nat.le_of_lt_succ h)
    obtain ⟨off, hoff, heq⟩ := exists_eq_bitsN (bits.take n)
    rw [hlen] at hoff heq
    refine ⟨_, _, bits.drop n, .band hband neg hoff, ?_⟩
    rw [← heq, List.append_assoc, List.cons_append, List.take_append_drop]

/-- The code is complete apart from the reserved prefix (R92): 16 bits begin with a codeword. -/
theorem exists_codewordOf_prefix {bits : Bits} (hlen : 16 ≤ bits.length)
    (hpre : bits.take 5 ≠ [true, true, true, true, true]) : ∃ v c rest, CodewordOf v c ∧ bits = c ++ rest := by
  match bits with
  | false :: false :: rest => exact ⟨_, _, rest, .zero, rfl⟩
  | false :: true :: rest => exact ⟨_, _, rest, .plus1, rfl⟩
  | true :: false :: rest => exact ⟨_, _, rest, .minus1, rfl⟩
  | true :: true :: false :: rest =>
    exact exists_codewordOf_of_isBand .band4 (by simp only [List.length_cons] at hlen; omega)
  | true :: true :: true :: false :: rest =>
    exact exists_codewordOf_of_isBand .band7 (by simp only [List.length_cons] at hlen; omega)
  | true :: true :: true :: true :: false :: rest =>
    exact exists_codewordOf_of_isBand .band10 (by simp only [List.length_cons] at hlen; omega)
  | true :: true :: true :: true :: true :: rest => exact absurd rfl hpre

/-- Settles O26: encoder and decoder meet the same relation, and 16 bits outside the reserved prefix hold a codeword. -/
theorem codeIsOneToOne : Obligations.CodeIsOneToOne := by
  unfold Obligations.CodeIsOneToOne
  refine ⟨?_, ?_, ?_⟩
  · intro v hlo hhi
    obtain ⟨c, hc⟩ := exists_codewordOf (v := v) (by omega)
    exact ⟨c, hc.vlcEncode_eq, vlcDecode_bitsRead1_eq_ok_iff.mpr ⟨c, hc, rfl, (List.append_nil c).symm⟩⟩
  · intro bits rest v L h
    obtain ⟨c, hc, rfl, rfl⟩ := vlcDecode_bitsRead1_eq_ok_iff.mp h
    have hmag := (vlcEncode_ok hc.vlcEncode_eq).1
    rw [List.take_left, List.drop_left]
    exact ⟨by omega, by omega, hc.vlcEncode_eq, rfl, rfl⟩
  · intro bits hlen hpre
    obtain ⟨v, c, rest, hc, hbits⟩ := exists_codewordOf_prefix hlen hpre
    exact ⟨v, c.length, rest, vlcDecode_bitsRead1_eq_ok_iff.mpr ⟨c, hc, rfl, hbits⟩⟩

end Sys2Proof.Machine
end

section
/-! PROOFS. The float fields rebuild the sample (40_float_fields.md R115), exponent deltas are invertible and centered
(R118), and so each has a codeword and APPEND is never refused by the codec (R119). -/

namespace Sys2Proof.Machine

/-! ## The fields of a sample -/

/-- A number is its upper part, put back in place, joined with its low `k` bits. -/
theorem shiftRight_shiftLeft_or_mod (n k : Nat) : (n >>> k) <<< k ||| n % 2 ^ k = n := by
  rw [← Nat.shiftLeft_add_eq_or_of_lt (Nat.mod_lt n (Nat.two_pow_pos k)), Nat.shiftLeft_eq, Nat.shiftRight_eq_div_pow,
    Nat.div_add_mod']

theorem width_sub_one (sh : Shape) : sh.width - 1 = sh.mantBits + sh.expBits := by
  unfold Shape.width; omega

/-- Above the mantissa and the exponent a W-bit pattern has the sign bit alone. -/
theorem getSign_toNat {sh : Shape} {v : BitVec 64} (h : v.toNat < 2 ^ sh.width) :
    (getSign sh v).toNat = v.toNat >>> (sh.width - 1) := by
  have hwidth : sh.width = sh.width - 1 + 1 := by unfold Shape.width; omega
  have hbit : v.toNat / 2 ^ (sh.width - 1) < 2 := by
    rw [hwidth, pow_succ] at h
    exact Nat.div_lt_of_lt_mul h
  calc (getSign sh v).toNat = v.toNat / 2 ^ (sh.width - 1) % 2 := Nat.toNat_testBit _ _
    _ = v.toNat >>> (sh.width - 1) := by rw [Nat.mod_eq_of_lt hbit, Nat.shiftRight_eq_div_pow]

/-- Settles O21: sign and exponent join to the part above the mantissa, and that part joins with the mantissa to the
pattern. -/
theorem fieldsRebuildTheSample : Obligations.FieldsRebuildTheSample := by
  unfold Obligations.FieldsRebuildTheSample
  intro sh v h
  have hupper : (getSign sh v).toNat <<< sh.expBits ||| getExp sh v = v.toNat >>> sh.mantBits := by
    rw [getSign_toNat h, width_sub_one, Nat.shiftRight_add]
    exact shiftRight_shiftLeft_or_mod _ _
  have hsign : (getSign sh v).toNat <<< (sh.width - 1) =
      ((getSign sh v).toNat <<< sh.expBits) <<< sh.mantBits := by
    rw [width_sub_one, Nat.add_comm, Nat.shiftLeft_add]
  have hmant : getMantissa sh v % 2 ^ sh.mantBits = v.toNat % 2 ^ sh.mantBits := Nat.mod_mod _ _
  rw [fromParts, Nat.mod_eq_of_lt (getExp_lt sh v), hsign, ← Nat.shiftLeft_or_distrib, hupper, hmant,
    shiftRight_shiftLeft_or_mod, BitVec.ofNat_toNat, BitVec.setWidth_eq]

/-! ## Exponent deltas -/

theorem two_pow_expBits (sh : Shape) : (2 : Int) ^ sh.expBits = 2 * 2 ^ (sh.expBits - 1) := by
  cases sh <;> rfl

/-- A delta is the difference of the exponents up to a multiple of `2^E`. -/
theorem expDiff_emod (sh : Shape) (prev curr : Nat) :
    expDiff sh prev curr % 2 ^ sh.expBits = ((curr : Int) - prev) % 2 ^ sh.expBits := by
  unfold expDiff
  dsimp only
  split
  · rw [Int.sub_emod_right, Int.emod_emod]
  · rw [Int.emod_emod]

/-- The centered range of a delta (R116). -/
theorem expDiff_mem_range (sh : Shape) (prev curr : Nat) :
    -(2 ^ (sh.expBits - 1)) < expDiff sh prev curr ∧ expDiff sh prev curr ≤ 2 ^ (sh.expBits - 1) := by
  have hhalf : (0 : Int) < 2 ^ (sh.expBits - 1) := pow_pos two_pos _
  unfold expDiff
  dsimp only
  rw [two_pow_expBits]
  have hlo := Int.emod_nonneg ((curr : Int) - prev) (b := 2 * 2 ^ (sh.expBits - 1)) (by omega)
  have hhi := Int.emod_lt_of_pos ((curr : Int) - prev) (b := 2 * 2 ^ (sh.expBits - 1)) (by omega)
  split <;> omega

/-- Adding a delta to the exponent it starts from gives the exponent it leads to (R118). -/
theorem expAdv_expDiff {sh : Shape} (prev : Nat) {curr : Nat} (h : curr < 2 ^ sh.expBits) :
    expAdv sh prev (expDiff sh prev curr) = curr := by
  have hcurr : (curr : Int) % 2 ^ sh.expBits = curr := by exact_mod_cast Nat.mod_eq_of_lt h
  unfold expAdv
  rw [Int.add_emod, expDiff_emod, ← Int.add_emod, add_sub_cancel, hcurr, Int.toNat_natCast]

/-- Settles O22: a delta differs from the exponents' difference by a multiple of `2^E` that centers it. -/
theorem exponentDeltaIsInvertible : Obligations.ExponentDeltaIsInvertible := by
  unfold Obligations.ExponentDeltaIsInvertible
  intro sh prev curr _ hcurr
  exact ⟨expAdv_expDiff prev hcurr, expDiff_mem_range sh prev curr⟩

/-! ## The codewords of deltas -/

theorem expDiff_natAbs_le (sh : Shape) (prev curr : Nat) :
    (expDiff sh prev curr).natAbs ≤ 2 ^ (sh.expBits - 1) := by
  obtain ⟨hlo, hhi⟩ := expDiff_mem_range sh prev curr
  zify
  exact abs_le.mpr ⟨hlo.le, hhi⟩

theorem expDiff_natAbs_le_1024 (sh : Shape) (prev curr : Nat) : (expDiff sh prev curr).natAbs ≤ 1024 :=
  (expDiff_natAbs_le sh prev curr).trans
    (Nat.pow_le_pow_right two_pos (Nat.sub_le_sub_right (expBits_le sh) 1))

theorem exists_vlcEncode_expDiff (sh : Shape) (prev curr : Nat) : ∃ c, vlcEncode (expDiff sh prev curr) = .ok c := by
  obtain ⟨c, hc⟩ := exists_codewordOf ((expDiff_natAbs_le_1024 sh prev curr).trans (by decide))
  exact ⟨c, hc.vlcEncode_eq⟩

/-- Whatever the chunk, the codec refuses no sample (90_conflicts.md C3). -/
theorem exists_appendCodeword (sh : Shape) (v : BitVec 64) (k : Chunk) : ∃ c, appendCodeword sh v k = .ok c :=
  exists_vlcEncode_expDiff sh _ _

/-- The statuses an APPEND can end in. -/
theorem exec_append_status {a : BitVec 64} {s t : State} (h : exec (.append a) s = .next t) :
    t.rsp.status = Status.sequenceError.code ∨ t.rsp.status = Status.countOverflow.code ∨
      t.rsp.status = Status.ok.code := by
  rcases execAppend_cases a s with ⟨-, hx⟩ | ⟨-, -, hx⟩ | ⟨c, -, -, -, hx⟩ | ⟨k, hrefused, -⟩
  · cases hx.symm.trans h; exact .inl rfl
  · cases hx.symm.trans h; exact .inr (.inl rfl)
  · cases hx.symm.trans h; exact .inr (.inr rfl)
  · obtain ⟨c, hc⟩ := exists_appendCodeword s.config.shape (sampleOf s.config.shape a) s.chunk
    cases hc.symm.trans hrefused

/-- Settles O23: the centered range of either shape lies within the code, so the encoder refuses no delta. -/
theorem everyDeltaHasACodeword : Obligations.EveryDeltaHasACodeword := by
  unfold Obligations.EveryDeltaHasACodeword
  refine ⟨fun sh prev curr => ⟨expDiff_natAbs_le sh prev curr, expDiff_natAbs_le_1024 sh prev curr,
    exists_vlcEncode_expDiff sh prev curr⟩, by decide, by decide, by decide, by decide, fun a s t h => ?_⟩
  rcases exec_append_status h with hstatus | hstatus | hstatus <;> rw [hstatus] <;> decide

end Sys2Proof.Machine
end

section
/-! PROOFS. The laws of the codec (41_varint_codec.md R136, R138, R139): a codeword decodes to its value whatever follows,
concatenated codewords decode in order over every reader, and the reserved prefix ends the decoding. -/

namespace Sys2Proof.Machine

/-! ## Single codewords -/

/-- Out of the range the encoder gives no codeword (30_encoding.md R85, 41_varint_codec.md R130). -/
theorem vlcEncode_of_large {v : Int} (h : 1170 ≤ v.natAbs) : vlcEncode v = .error .unsupportedMagnitude := by
  cases hv : vlcEncode v with
  | ok c =>
    have hmag := (vlcEncode_ok hv).1
    omega
  | error k => rw [(vlcEncode_error hv).1]

theorem exists_codewordOf_of_inVlcRange {v : Int} (h : InVlcRange v) : ∃ c, CodewordOf v c := by
  obtain ⟨hlo, hhi⟩ := h
  exact exists_codewordOf (by omega)

/-- Settles O24: encoder and decoder meet the relation `CodewordOf`, and the decoder leaves what follows a codeword. -/
theorem codecRoundTrip : Obligations.CodecRoundTrip := by
  unfold Obligations.CodecRoundTrip
  refine ⟨fun v hlo hhi => ?_, fun v hv => vlcEncode_of_large hv⟩
  obtain ⟨c, hc⟩ := exists_codewordOf_of_inVlcRange ⟨hlo, hhi⟩
  exact ⟨c, hc.vlcEncode_eq, fun rest => hc.vlcDecode_eq (bitsRead1_delivers c rest)⟩

/-! ## Concatenated codewords -/

theorem codewordOf_codeword {d : Int} (h : InVlcRange d) : CodewordOf d (codeword d) := by
  obtain ⟨c, hc⟩ := exists_codewordOf_of_inVlcRange h
  rwa [codeword_of_vlcEncode hc.vlcEncode_eq]

theorem codewords_cons (d : Int) (ds : List Int) : codewords (d :: ds) = codeword d ++ codewords ds := rfl

section
variable {σ : Type} {read1 : σ → ReadResult σ Bool}

/-- A reader that delivers the codewords of a list has that list decoded, and stands right after the last one. -/
theorem decodeMany_of_delivers {ds : List Int} (hds : ∀ d ∈ ds, InVlcRange d) {r r' : σ}
    (h : Delivers read1 r (codewords ds) r') : decodeMany read1 ds.length r = .ok ds r' := by
  induction ds generalizing r with
  | nil => cases h; rfl
  | cons d ds ih =>
    obtain ⟨hd, hds⟩ := List.forall_mem_cons.mp hds
    rw [codewords_cons] at h
    obtain ⟨r1, hfirst, hrest⟩ := delivers_append.mp h
    have hdecode := (codewordOf_codeword hd).vlcDecode_eq hfirst
    simp [decodeMany, hdecode, ih hds hrest]

/-- The reserved prefix ends the decoding at its fifth bit, with nothing more read (R136). -/
theorem vlcDecode_of_reservedPrefix {r r' : σ} (h : Delivers read1 r [true, true, true, true, true] r') :
    vlcDecode read1 r = .raised .corruptStream r' := by
  obtain ⟨_, h0, _, h1, _, h2, _, h3, _, h4, rfl⟩ := h
  simp [vlcDecode, h0, h1, h2, h3, h4]

end

/-- Settles O25: a plain bit sequence delivers the codewords in front of `rest`. -/
theorem concatenatedCodewordsDecode : Obligations.ConcatenatedCodewordsDecode := by
  unfold Obligations.ConcatenatedCodewordsDecode
  exact fun ds rest hds => decodeMany_of_delivers hds (bitsRead1_delivers (codewords ds) rest)

/-! ## The reserved prefix -/

/-- Settles O28: the decoder stops after the five bits it was delivered, and `lengthFromFirstBits` says that no codeword
begins with them. -/
theorem reservedPrefixStopsDecoding : Obligations.ReservedPrefixStopsDecoding := by
  unfold Obligations.ReservedPrefixStopsDecoding
  refine ⟨fun rest => vlcDecode_of_reservedPrefix (bitsRead1_delivers [true, true, true, true, true] rest), fun v c h => ?_⟩
  obtain ⟨-, -, -, -, hpre, -⟩ := lengthFromFirstBits v c h
  exact hpre

end Sys2Proof.Machine
end

section
/-! PROOFS. What NEW, APPEND, FINALIZE and SERIALIZE do in each of their cases, one equation per case
(42_chunk_encoder.md R160 to R177). -/

namespace Sys2Proof.Machine

/-! ## NEW -/

/-- Settles O37: neither decoding nor running NEW tests anything but the CMD word. -/
theorem newStartsAnEmptyChunk : Obligations.NewStartsAnEmptyChunk := by
  unfold Obligations.NewStartsAnEmptyChunk
  refine ⟨fun a b => ?_, fun _ _ => rfl⟩
  simp [decode, decodeCommand, Command.rsvd, Command.op]

/-! ## APPEND -/

theorem exec_append_out_of_phase (a : BitVec 64) {s : State} (hphase : s.chunk.phase ≠ .opened) :
    exec (.append a) s = .next (respond .sequenceError 0#64 0#5 s) := by
  simp [exec, execAppend, hphase]

/-- In phase OPEN below the limit an APPEND transposes its sample (R163). -/
theorem exec_append_push {a : BitVec 64} {s : State} {c : Bits} (hphase : s.chunk.phase = .opened)
    (hcount : s.chunk.count ≠ s.config.maxSamples)
    (hcode : appendCodeword s.config.shape (sampleOf s.config.shape a) s.chunk = .ok c) :
    exec (.append a) s = .next (respond .ok 0#64 (BitVec.ofNat 5 c.length)
      { s with chunk := s.chunk.push s.config.shape (sampleOf s.config.shape a) c }) := by
  simp [exec, execAppend, hphase, hcount, hcode]

/-- Settles O40: the two refusals of APPEND, each of which writes the response alone. -/
theorem appendChecksPhaseThenCount : Obligations.AppendChecksPhaseThenCount := by
  unfold Obligations.AppendChecksPhaseThenCount
  exact fun a s => ⟨exec_append_out_of_phase a, exec_append_at_limit a⟩

/-- Settles O38: the codeword exists for every delta, and the transposition is the chunk written out. -/
theorem appendTransposesTheSample : Obligations.AppendTransposesTheSample := by
  unfold Obligations.AppendTransposesTheSample
  intro a s hphase hcount
  obtain ⟨c, hcode⟩ := exists_appendCodeword s.config.shape (sampleOf s.config.shape a) s.chunk
  refine ⟨c, hcode, by simpa using (vlcEncode_ok hcode).2, ?_⟩
  rw [exec_append_push hphase hcount hcode]
  simp only [respond, Chunk.push, hphase, List.mapIdx_eq_zipIdx_map]
  rfl

/-- The plane bit by the parity bit of the exponent (R167). -/
theorem planeBit_eq_xor (m e i : Nat) : planeBit m e i = (m.testBit i ^^ e.testBit 0) := by
  rw [planeBit, isEven, Nat.testBit_zero]
  rcases Nat.mod_two_eq_zero_or_one e with h | h <;> simp [h]

/-- The transposition adds bit `i` of the sample to plane `i` (R165). -/
theorem getD_push_ps {sh : Shape} {v : BitVec 64} {c : Bits} {k : Chunk} {i : Nat} (hi : i < k.ps.length) :
    (k.push sh v c).ps.getD i [] = k.ps.getD i [] ++ [planeBit (getMantissa sh v) (getExp sh v) i] := by
  simp [hi]

/-- Settles O41: the two negations of the plane bit cancel. -/
theorem planeBitIsFlippedByOddExponent : Obligations.PlaneBitIsFlippedByOddExponent := by
  unfold Obligations.PlaneBitIsFlippedByOddExponent
  refine ⟨planeBit_eq_xor, fun a s t i h hok hi => ?_⟩
  obtain ⟨-, c, hpush⟩ := exec_append_ok h hok
  rw [hpush, getD_push_ps hi, planeBit_eq_xor]

/-! ## FINALIZE, and SERIALIZE out of phase -/

/-- FINALIZE in phase OPEN (R170). -/
theorem exec_finalize_of_opened {s : State} (hphase : s.chunk.phase = .opened) :
    exec .finalize s = .next (respond .ok 0#64 0#5 { s with chunk := s.chunk.align }) := by
  simp [exec, execFinalize, hphase]

theorem exec_finalize_out_of_phase {s : State} (hphase : s.chunk.phase ≠ .opened) :
    exec .finalize s = .next (respond .sequenceError 0#64 0#5 s) := by
  simp [exec, execFinalize, hphase]

theorem exec_serialize_out_of_phase {s : State} (hphase : s.chunk.phase ≠ .finalized) :
    exec .serialize s = .next (respond .sequenceError 0#64 0#5 s) := by
  simp [exec, execSerialize, hphase]

/-- Settles O44: both commands test the phase first, and a refusal writes the response alone. -/
theorem outOfPhaseCommandsAreRefused : Obligations.OutOfPhaseCommandsAreRefused := by
  unfold Obligations.OutOfPhaseCommandsAreRefused
  exact fun _ => ⟨exec_finalize_out_of_phase, exec_serialize_out_of_phase⟩

/-! ## The sink -/

/-- The state once the sink has taken the bytes `bs`, with one answer used for each. -/
def State.afterTaking (s : State) (bs : List Byte) : State :=
  { s with
    out := s.out ++ bs, sinkStore := s.sinkStore ++ bs, sinkAnswers := s.sinkAnswers.drop bs.length }

/-- As long as the sink answers `ok`, sending goes on with the bytes that follow. -/
theorem sendBytes_append_of_ok (front back : List Byte) (j : Nat) (s : State)
    (h : ∀ a ∈ s.sinkAnswers.take front.length, a = .ok) :
    sendBytes (front ++ back) j s = sendBytes back (j + front.length) (s.afterTaking front) := by
  induction front generalizing j s with
  | nil => simp [State.afterTaking]
  | cons b front ih =>
    have htaken : outByte b s = (true, s.afterTaking [b]) := by
      rcases outByte_cases b s with ⟨rest, hanswers, hb⟩ | ⟨rest, hanswers, -⟩
      · rw [hb]
        rcases hanswers with hanswers | ⟨hanswers, rfl⟩ <;> simp [State.afterTaking, hanswers]
      · exact absurd (h .fail (by simp [hanswers])) (by decide)
    have hrest : ∀ a ∈ (s.afterTaking [b]).sinkAnswers.take front.length, a = .ok := by
      intro a ha
      refine h a (List.mem_of_mem_drop (i := 1) ?_)
      rwa [List.drop_take]
    calc sendBytes (b :: front ++ back) j s = sendBytes (front ++ back) (j + 1) (s.afterTaking [b]) := by
          rw [List.cons_append, sendBytes, htaken]
      _ = sendBytes back (j + 1 + front.length) ((s.afterTaking [b]).afterTaking front) := ih _ _ hrest
      _ = sendBytes back (j + (b :: front).length) (s.afterTaking (b :: front)) := by
          rw [List.length_cons, Nat.add_right_comm j 1, Nat.add_assoc]
          simp [State.afterTaking]

/-- With a sink that takes every byte SERIALIZE emits the streams (R175). -/
theorem exec_serialize_of_ok {s : State} (hphase : s.chunk.phase = .finalized)
    (h : ∀ a ∈ s.sinkAnswers.take s.chunk.bytes.length, a = .ok) :
    exec .serialize s = .next (respond .ok (BitVec.ofNat 64 s.chunk.bytes.length) 0#5
      { s.afterTaking s.chunk.bytes with chunk := s.chunk.inPhase .serialized }) := by
  have hsend := sendBytes_append_of_ok s.chunk.bytes [] 0 s h
  rw [List.append_nil, sendBytes, Nat.zero_add] at hsend
  simp [exec, execSerialize, hphase, hsend, State.afterTaking]

/-- When the sink refuses a byte, SERIALIZE stops before it (R177). -/
theorem exec_serialize_of_fail {s : State} {front back : List Byte} {b : Byte} {later : List SinkAnswer}
    (hphase : s.chunk.phase = .finalized) (hbytes : s.chunk.bytes = front ++ b :: back)
    (h : s.sinkAnswers = List.replicate front.length .ok ++ .fail :: later) :
    exec .serialize s = .next (respond .ioFailure (BitVec.ofNat 64 front.length) 0#5
      { s with
        chunk := s.chunk.inPhase .failed, out := s.out ++ front
        sinkStore := s.sinkStore ++ front, sinkAnswers := later }) := by
  have hsend := sendBytes_append_of_ok front (b :: back) 0 s (by simp [h])
  rw [← hbytes] at hsend
  simp [exec, execSerialize, hphase, hsend, sendBytes, outByte, State.afterTaking, h]

/-- Only a fresh chunk replaces a FAILED one (10_state.md R21). -/
theorem Chunk.Effect.eq_new_of_leaves_failed {cfg : Config} {k k' : Chunk} {i : Instr} (h : Chunk.Effect cfg k i k')
    (hphase : k.phase = .failed) (hleft : k'.phase ≠ .failed) : ∃ hint, i = .new hint := by
  cases h with
  | keep => exact absurd hphase hleft
  | fresh hint => exact ⟨hint, rfl⟩
  | push => exact absurd hphase hleft
  | align hopened => simp [hopened] at hphase
  | leave p hfinalized => simp [hfinalized] at hphase

/-- Settles O46: the bytes before offset `j` are the front that the sink takes, and a FAILED chunk is replaced
by a fresh one alone. -/
theorem serializeStopsAtTheFailingByte : Obligations.SerializeStopsAtTheFailingByte := by
  unfold Obligations.SerializeStopsAtTheFailingByte
  constructor
  · rintro s bs j later hphase rfl hj hanswers
    have hlen : (s.chunk.bytes.take j).length = j := List.length_take_of_le hj.le
    have hbytes : s.chunk.bytes = s.chunk.bytes.take j ++ s.chunk.bytes[j] :: s.chunk.bytes.drop (j + 1) := by
      rw [← List.drop_eq_getElem_cons hj, List.take_append_drop]
    rw [exec_serialize_of_fail hphase hbytes (by rw [hlen, hanswers]), hlen]
    rfl
  · intro i s t h hphase hleft
    exact (exec_effect h).2.eq_new_of_leaves_failed hphase hleft

end Sys2Proof.Machine
end

section
/-! PROOFS. The chunk that NEW and APPENDs build of a list of samples, in closed form (42_chunk_encoder.md R166 to
R168), and the container that FINALIZE and SERIALIZE make of it (R178). -/

namespace Sys2Proof.Machine

/-! ## Neighbours in a list -/

/-- Combining each element with the one before it, where `a` stands before the first: one more element at the end. -/
theorem zipWith_cons_snoc {α β : Type} (f : α → α → β) (a v : α) (vs : List α) :
    List.zipWith f (a :: (vs ++ [v])) (vs ++ [v]) = List.zipWith f (a :: vs) vs ++ [f (vs.getLastD a) v] := by
  induction vs generalizing a with
  | nil => rfl
  | cons u vs ih => rw [List.getLastD_cons, List.cons_append, List.zipWith_cons_cons, ih]; rfl

/-- The same by position. -/
theorem zipWith_cons_eq_map_range {α β : Type} (f : α → α → β) (a : α) (vs : List α) :
    List.zipWith f (a :: vs) vs =
      (List.range vs.length).map fun k => f (if k = 0 then a else vs.getD (k - 1) a) (vs.getD k a) := by
  apply List.ext_getElem
  · simp
  · intro k hk _
    have hlt : k < vs.length := by simpa using hk
    cases k with
    | zero => simp [hlt]
    | succ k => simp [hlt, Nat.lt_of_succ_lt hlt]

/-! ## The chunk of a list of samples -/

/-- The chunk after NEW and APPENDs of `vs`: the streams are those of the samples, and the previous fields those of the
last sample, or of the all-zero pattern where there is none. -/
def chunkOf (sh : Shape) (vs : List (BitVec 64)) : Chunk where
  phase := .opened
  count := BitVec.ofNat 32 vs.length
  prevSign := getSign sh (vs.getLastD 0#64)
  prevExp := BitVec.ofNat 11 (getExp sh (vs.getLastD 0#64))
  ss := signStream sh vs
  xs := codewords (deltas sh vs)
  ps := (List.range sh.mantBits).map (planeStream sh vs)

theorem getSign_zero (sh : Shape) : getSign sh 0#64 = false := BitVec.getLsbD_zero

theorem getExp_zero (sh : Shape) : getExp sh 0#64 = 0 := by simp [getExp]

theorem chunkOf_nil (sh : Shape) : chunkOf sh [] = Chunk.fresh sh := by
  have hplane : planeStream sh [] = Function.const Nat [] := rfl
  simp [chunkOf, Chunk.fresh, getSign_zero, getExp_zero, hplane, signStream, deltas, codewords]

theorem signStream_snoc (sh : Shape) (vs : List (BitVec 64)) (v : BitVec 64) :
    signStream sh (vs ++ [v]) = signStream sh vs ++ [getSign sh (vs.getLastD 0#64) ^^ getSign sh v] :=
  zipWith_cons_snoc _ _ _ _

theorem deltas_snoc (sh : Shape) (vs : List (BitVec 64)) (v : BitVec 64) :
    deltas sh (vs ++ [v]) = deltas sh vs ++ [expDiff sh (getExp sh (vs.getLastD 0#64)) (getExp sh v)] :=
  zipWith_cons_snoc _ _ _ _

theorem planeStream_snoc (sh : Shape) (vs : List (BitVec 64)) (v : BitVec 64) (i : Nat) :
    planeStream sh (vs ++ [v]) i = planeStream sh vs i ++ [planeBit (getMantissa sh v) (getExp sh v) i] := by
  simp [planeStream, planeBit_eq_xor]

theorem appendCodeword_chunkOf (sh : Shape) (vs : List (BitVec 64)) (v : BitVec 64) :
    appendCodeword sh v (chunkOf sh vs) = vlcEncode (expDiff sh (getExp sh (vs.getLastD 0#64)) (getExp sh v)) := by
  rw [appendCodeword, chunkOf, toNat_ofNat_getExp]

theorem Chunk.eq_of_fields_eq {k k' : Chunk} (phase : k.phase = k'.phase) (count : k.count = k'.count)
    (prevSign : k.prevSign = k'.prevSign) (prevExp : k.prevExp = k'.prevExp) (ss : k.ss = k'.ss) (xs : k.xs = k'.xs)
    (ps : k.ps = k'.ps) : k = k' := by
  cases k
  cases k'
  congr

/-- The transposition of one more sample gives the chunk of the longer list. -/
theorem push_chunkOf {sh : Shape} {vs : List (BitVec 64)} {v : BitVec 64} {c : Bits}
    (hcode : appendCodeword sh v (chunkOf sh vs) = .ok c) :
    (chunkOf sh vs).push sh v c = chunkOf sh (vs ++ [v]) := by
  rw [appendCodeword_chunkOf] at hcode
  apply Chunk.eq_of_fields_eq
  case phase => rfl
  case count => simp [chunkOf, BitVec.ofNat_add]
  case prevSign => simp [chunkOf]
  case prevExp => simp [chunkOf]
  case ss => simp only [push_ss, chunkOf, signStream_snoc, Bool.xor_comm]
  case xs => simp only [push_xs, chunkOf, deltas_snoc, codewords_snoc _ hcode]
  case ps => apply List.ext_getElem <;> simp [chunkOf, planeStream_snoc]

/-! ## Running the encoder's commands -/

theorem runAll_cons {i : Instr} {is : List Instr} {s t : State} (h : exec i s = .next t) :
    runAll (i :: is) s = runAll is t := by
  rw [runAll, h]

theorem runAll_append {is js : List Instr} {s t : State} (h : runAll is s = .next t) :
    runAll (is ++ js) s = runAll js t := by
  induction is generalizing s with
  | nil => cases h; rfl
  | cons i is ih =>
    cases hi : exec i s with
    | next u =>
      rw [runAll_cons hi] at h
      rw [List.cons_append, runAll_cons hi, ih h]
    | fault r => simp [runAll, hi] at h
    | refused r => simp [runAll, hi] at h

/-- A W-bit pattern in ARG_A is the sample (30_encoding.md R82). -/
theorem sampleOf_eq_self {sh : Shape} {v : BitVec 64} (h : v.toNat < 2 ^ sh.width) : sampleOf sh v = v := by
  rw [sampleOf, Nat.mod_eq_of_lt h, BitVec.ofNat_toNat, BitVec.setWidth_eq]

/-- A number of samples below MAX_SAMPLES is below it as a count too. -/
theorem ofNat_ne_of_lt_toNat {n : Nat} {limit : BitVec 32} (h : n < limit.toNat) : BitVec.ofNat 32 n ≠ limit := by
  rintro rfl
  exact absurd h (Nat.not_lt.mpr (Nat.mod_le _ _))

/-- NEW and APPENDs of `vs` leave the chunk of `vs`, and change nothing else but the response. -/
theorem runAll_new_appends (s : State) (hint : BitVec 32) {vs : List (BitVec 64)}
    (hwidth : AllOfWidth s.config.shape vs) (hlen : vs.length ≤ s.config.maxSamples.toNat) :
    ∃ r, runAll (.new hint :: vs.map .append) s = .next { s with chunk := chunkOf s.config.shape vs, rsp := r } := by
  induction vs using List.reverseRecOn with
  | nil => exact ⟨_, by rw [chunkOf_nil]; rfl⟩
  | append_singleton vs v ih =>
    obtain ⟨hvs, hv⟩ := List.forall_mem_append.mp hwidth
    have hlt : vs.length < s.config.maxSamples.toNat := by simpa using hlen
    obtain ⟨r, hrun⟩ := ih hvs hlt.le
    obtain ⟨c, hcode⟩ := exists_appendCodeword s.config.shape v (chunkOf s.config.shape vs)
    have hsample : sampleOf s.config.shape v = v := sampleOf_eq_self (hv v (List.mem_singleton_self v))
    rw [List.map_append, ← List.cons_append, runAll_append hrun, List.map_singleton,
      runAll_cons (exec_append_push rfl (ofNat_ne_of_lt_toNat hlt) (by rw [hsample]; exact hcode))]
    simp only [hsample, push_chunkOf hcode]
    exact ⟨_, rfl⟩

/-- Settles O42: the streams of the chunk of `vs`, read by position. -/
theorem streamsAfterAppends : Obligations.StreamsAfterAppends := by
  unfold Obligations.StreamsAfterAppends
  intro s hint vs hwidth hlen
  obtain ⟨r, hrun⟩ := runAll_new_appends s hint hwidth hlen
  refine ⟨_, hrun, signStream_length _ _, fun k hk => ?_, ?_, rfl⟩
  · simp only [chunkOf, signStream, zipWith_cons_eq_map_range]
    simp [hk, apply_ite (getSign s.config.shape), getSign_zero]
  · simp only [chunkOf, codewords, deltas, zipWith_cons_eq_map_range]
    simp [List.flatMap_map, apply_ite (getExp s.config.shape), getExp_zero]

/-! ## The container -/

theorem align_chunkOf_bytes (sh : Shape) (vs : List (BitVec 64)) : (chunkOf sh vs).align.bytes = container sh vs := by
  simp [Chunk.bytes, chunkOf, container, List.flatMap_map]

/-- FINALIZE and SERIALIZE in phase OPEN emit the aligned streams, if the sink takes every byte. -/
theorem runAll_finalize_serialize {s : State} (hphase : s.chunk.phase = .opened)
    (h : ∀ a ∈ s.sinkAnswers.take s.chunk.align.bytes.length, a = .ok) :
    runAll [.finalize, .serialize] s = .next (respond .ok (BitVec.ofNat 64 s.chunk.align.bytes.length) 0#5
      { s.afterTaking s.chunk.align.bytes with chunk := s.chunk.align.inPhase .serialized }) := by
  rw [runAll_cons (exec_finalize_of_opened hphase), runAll_cons (exec_serialize_of_ok rfl h)]
  rfl

/-- Settles O47: the chunk of the samples, aligned, has the bytes of their container, and the sink takes them all. -/
theorem containerLaw : Obligations.ContainerLaw := by
  unfold Obligations.ContainerLaw
  intro s hint vs hwidth hlen hsink
  obtain ⟨r, hrun⟩ := runAll_new_appends s hint hwidth hlen
  rw [← align_chunkOf_bytes] at hsink ⊢
  rw [encodeProgram, runAll_append hrun, runAll_finalize_serialize]
  · exact ⟨_, rfl, rfl, rfl, rfl, rfl, rfl, rfl, rfl⟩
  · rfl
  · exact hsink

end Sys2Proof.Machine
end

section
/-! PROOFS. The statuses that the readers of DESERIALIZE raise, its error outcome (43_chunk_decoder.md R199), and its
check of the count field (R192). -/

namespace Sys2Proof.Machine

/-! ## The statuses a reader raises -/

/-- The reading succeeds, or raises a status with the property `P`. -/
def RaisesOnly {σ α : Type} (P : Status → Prop) : ReadResult σ α → Prop
  | .ok _ _ => True
  | .raised k _ => P k

section
variable {σ α β : Type} {P : Status → Prop}

theorem raisesOnly_ok (a : α) (r : σ) : RaisesOnly P (.ok a r) := trivial

theorem RaisesOnly.of_raised {x : ReadResult σ α} {k : Status} {r : σ} (h : RaisesOnly P x) (hx : x = .raised k r) :
    P k := by
  subst hx; exact h

theorem RaisesOnly.andThen {x : ReadResult σ α} {f : α → σ → ReadResult σ β} (hx : RaisesOnly P x)
    (hf : ∀ a r, RaisesOnly P (f a r)) : RaisesOnly P (x.andThen f) := by
  cases x with
  | ok a r => exact hf a r
  | raised k r => exact hx

/-! ### The codec over a reader -/

variable {read1 : σ → ReadResult σ Bool}

theorem readOffset_raisesOnly (hread : ∀ r, RaisesOnly P (read1 r)) (n off : Nat) (r : σ) :
    RaisesOnly P (readOffset read1 n off r) := by
  induction n generalizing off r with
  | zero => exact raisesOnly_ok _ _
  | succ n ih => exact (hread r).andThen fun _ _ => ih _ _

theorem readBand_raisesOnly (hread : ∀ r, RaisesOnly P (read1 r)) (n base plen : Nat) (r : σ) :
    RaisesOnly P (readBand read1 n base plen r) :=
  (hread r).andThen fun _ r => (readOffset_raisesOnly hread n 0 r).andThen fun _ _ => raisesOnly_ok _ _

/-- The codec adds to what its reader raises the CORRUPT_STREAM of the reserved prefix (41_varint_codec.md R136). -/
theorem vlcDecode_raisesOnly (hcorrupt : P .corruptStream) (hread : ∀ r, RaisesOnly P (read1 r)) (r : σ) :
    RaisesOnly P (vlcDecode read1 r) := by
  refine (hread r).andThen fun b0 r => (hread r).andThen fun b1 r => ?_
  match b0, b1 with
  | false, false => exact raisesOnly_ok _ _
  | false, true => exact raisesOnly_ok _ _
  | true, false => exact raisesOnly_ok _ _
  | true, true =>
    refine (hread r).andThen fun b2 r => ?_
    split
    · exact readBand_raisesOnly hread 4 2 3 r
    refine (hread r).andThen fun b3 r => ?_
    split
    · exact readBand_raisesOnly hread 7 18 4 r
    refine (hread r).andThen fun b4 r => ?_
    split
    · exact readBand_raisesOnly hread 10 146 5 r
    · exact hcorrupt

end

/-! ### The parts of DESERIALIZE

The channel raises CORRUPT_STREAM at its end and IO_FAILURE at a failing item (R191); every part adds nothing to these
but `read_count`, which can raise COUNT_OVERFLOW (R192). -/

section
variable {P : Status → Prop} (hcorrupt : P .corruptStream) (hio : P .ioFailure)
include hcorrupt hio

theorem nextByte_raisesOnly (items : List InItem) : RaisesOnly P (nextByte items) := by
  match items with
  | [] => exact hcorrupt
  | .fail :: _ => exact hio
  | .byte _ :: _ => exact raisesOnly_ok _ _

theorem takeBytes_raisesOnly (n : Nat) (items : List InItem) : RaisesOnly P (takeBytes n items) := by
  induction n generalizing items with
  | zero => exact raisesOnly_ok _ _
  | succ n ih =>
    exact (nextByte_raisesOnly hcorrupt hio items).andThen fun _ items => (ih items).andThen fun _ _ => raisesOnly_ok _ _

theorem decodeSigns_raisesOnly (n : Nat) (items : List InItem) : RaisesOnly P (decodeSigns n items) :=
  (takeBytes_raisesOnly hcorrupt hio (ceilDiv8 n) items).andThen fun _ _ => raisesOnly_ok _ _

theorem read1_raisesOnly (r : BitReader) : RaisesOnly P r.read1 := by
  match r with
  | ⟨_ :: _, _⟩ => exact raisesOnly_ok _ _
  | ⟨[], []⟩ => exact hcorrupt
  | ⟨[], .fail :: _⟩ => exact hio
  | ⟨[], .byte _ :: _⟩ => exact raisesOnly_ok _ _

theorem expLoop_raisesOnly (sh : Shape) (n prev : Nat) (r : BitReader) : RaisesOnly P (expLoop sh n prev r) := by
  induction n generalizing prev r with
  | zero => exact raisesOnly_ok _ _
  | succ n ih =>
    exact (vlcDecode_raisesOnly hcorrupt (read1_raisesOnly hcorrupt hio) r).andThen fun _ r =>
      (ih _ r).andThen fun _ _ => raisesOnly_ok _ _

theorem decodeExps_raisesOnly (sh : Shape) (n : Nat) (items : List InItem) : RaisesOnly P (decodeExps sh n items) := by
  have hloop := expLoop_raisesOnly hcorrupt hio sh n 0 ⟨[], items⟩
  unfold decodeExps
  split
  next => exact raisesOnly_ok _ _
  next hraised => exact hloop.of_raised hraised

theorem takePlanes_raisesOnly (m S : Nat) (items : List InItem) : RaisesOnly P (takePlanes m S items) := by
  induction m generalizing items with
  | zero => exact raisesOnly_ok _ _
  | succ m ih =>
    exact (takeBytes_raisesOnly hcorrupt hio S items).andThen fun _ items =>
      (ih items).andThen fun _ _ => raisesOnly_ok _ _

end

/-! ## The count field -/

theorem countOfBytes_lt (c0 c1 c2 c3 : Byte) : countOfBytes c0 c1 c2 c3 < 2 ^ 32 := by
  unfold countOfBytes; omega

/-- Reading on after a byte in front (R191). Rewriting with it keeps the kernel from running the reader, whose count it
would evaluate in unary. -/
theorem nextByte_byte_andThen {α : Type} (b : Byte) (rest : List InItem)
    (f : Byte → List InItem → ReadResult (List InItem) α) : (nextByte (.byte b :: rest)).andThen f = f b rest := rfl

/-- The check of `read_count` (R192), once its four bytes are there. -/
theorem readCount_of_bytes (limit : Nat) (c0 c1 c2 c3 : Byte) (rest : List InItem) :
    readCount limit (.byte c0 :: .byte c1 :: .byte c2 :: .byte c3 :: rest) =
      if limit < countOfBytes c0 c1 c2 c3 then .raised .countOverflow rest
      else .ok (countOfBytes c0 c1 c2 c3) rest := by
  rw [readCount, nextByte_byte_andThen, nextByte_byte_andThen, nextByte_byte_andThen, nextByte_byte_andThen]

/-- Four bytes hold no number above the largest limit, so with that limit `read_count` raises what the channel does. -/
theorem readCount_raisesOnly {P : Status → Prop} (hcorrupt : P .corruptStream) (hio : P .ioFailure) {limit : Nat}
    (hcount : limit < 2 ^ 32 - 1 → P .countOverflow) (items : List InItem) : RaisesOnly P (readCount limit items) := by
  have hbyte := nextByte_raisesOnly hcorrupt hio
  refine (hbyte items).andThen fun c0 items => (hbyte items).andThen fun c1 items =>
    (hbyte items).andThen fun c2 items => (hbyte items).andThen fun c3 items => ?_
  dsimp only
  split
  next hover =>
    have hlt := countOfBytes_lt c0 c1 c2 c3
    exact hcount (by omega)
  next => exact raisesOnly_ok _ _

/-! ## DESERIALIZE -/

theorem decodeContainer_raisesOnly {P : Status → Prop} (hcorrupt : P .corruptStream) (hio : P .ioFailure) {cfg : Config}
    (hcount : cfg.maxSamples.toNat < 2 ^ 32 - 1 → P .countOverflow) (items : List InItem) :
    RaisesOnly P (decodeContainer cfg items) :=
  (readCount_raisesOnly hcorrupt hio hcount items).andThen fun n items =>
    (decodeSigns_raisesOnly hcorrupt hio n items).andThen fun _ items =>
      (decodeExps_raisesOnly hcorrupt hio cfg.shape n items).andThen fun _ items =>
        (takePlanes_raisesOnly hcorrupt hio cfg.shape.mantBits (ceilDiv8 n) items).andThen fun _ _ => raisesOnly_ok _ _

/-- DESERIALIZE on a container that decodes (R190). -/
theorem exec_deserialize_of_ok {s : State} {vs : List (BitVec 64)} {items : List InItem}
    (h : decodeContainer s.config s.input = .ok vs items) :
    exec .deserialize s =
      .next (respond .ok (BitVec.ofNat 64 vs.length) 0#5 { s with samplesOut := vs, input := items }) := by
  simp [exec, execDeserialize, h]

/-- DESERIALIZE on an error (R199). -/
theorem exec_deserialize_of_raised {s : State} {k : Status} {items : List InItem}
    (h : decodeContainer s.config s.input = .raised k items) :
    exec .deserialize s = .next (respond k 0#64 0#5 { s with input := items }) := by
  simp [exec, execDeserialize, h]

/-- What DESERIALIZE ends in on an error is what the decoding raised. -/
theorem exec_deserialize_error {s t : State} (h : exec .deserialize s = .next t) (herror : t.rsp.status ≠ 0) :
    ∃ k items, decodeContainer s.config s.input = .raised k items ∧
      t = respond k 0#64 0#5 { s with input := items } := by
  rcases execDeserialize_cases s with ⟨vs, items, -, hx⟩ | ⟨k, items, hraised, hx⟩ <;> cases hx.symm.trans h
  · exact absurd rfl herror
  · exact ⟨k, items, hraised, rfl⟩

/-- Settles O55: an error writes IN and the response alone. -/
theorem failedDeserializeDeliversNothing : Obligations.FailedDeserializeDeliversNothing := by
  unfold Obligations.FailedDeserializeDeliversNothing
  intro s t h herror
  obtain ⟨k, items, -, rfl⟩ := exec_deserialize_error h herror
  rfl

theorem decodeContainer_of_large_count {cfg : Config} {c0 c1 c2 c3 : Byte} (rest : List InItem)
    (h : cfg.maxSamples.toNat < countOfBytes c0 c1 c2 c3) :
    decodeContainer cfg (.byte c0 :: .byte c1 :: .byte c2 :: .byte c3 :: rest) = .raised .countOverflow rest := by
  rw [decodeContainer, readCount_of_bytes, if_pos h, raised_andThen]

theorem Status.code_eq_five_iff {k : Status} : k.code = 5 ↔ k = .countOverflow := by cases k <;> decide

/-- Settles O52: the check comes right after the four bytes, and no part but `read_count` raises COUNT_OVERFLOW. -/
theorem countFieldAboveTheLimit : Obligations.CountFieldAboveTheLimit := by
  unfold Obligations.CountFieldAboveTheLimit
  constructor
  · intro s c0 c1 c2 c3 rest hinput hcount
    exact exec_deserialize_of_raised (hinput ▸ decodeContainer_of_large_count rest hcount)
  · intro s t hlimit h hfive
    obtain ⟨k, items, hraised, rfl⟩ := exec_deserialize_error h (by simp [hfive])
    have hk : k ≠ .countOverflow :=
      (decodeContainer_raisesOnly (P := (· ≠ .countOverflow)) nofun nofun (by omega) s.input).of_raised hraised
    exact hk (Status.code_eq_five_iff.mp hfive)

end Sys2Proof.Machine
end

section
/-! PROOFS. DESERIALIZE on a whole container at the front of IN (43_chunk_decoder.md R190 to R197), and the round trip of a
chunk through the encoder and the decoder (R200). -/

namespace Sys2Proof.Machine

/-! ## The parts of a container -/

theorem itemsOf_append (bs cs : List Byte) : itemsOf (bs ++ cs) = itemsOf bs ++ itemsOf cs := List.map_append

/-- The four bytes of the count field hold the count (20_memory.md R54). -/
theorem countOfBytes_be32 (n : BitVec 32) :
    countOfBytes (n.extractLsb' 24 8) (n.extractLsb' 16 8) (n.extractLsb' 8 8) (n.extractLsb' 0 8) = n.toNat := by
  have hlt := n.isLt
  simp only [countOfBytes, BitVec.extractLsb'_toNat, Nat.shiftRight_eq_div_pow]
  omega

/-- The count field is read back, if the limit admits the count (R192). -/
theorem readCount_be32 {n limit : Nat} (hlimit : n ≤ limit) (hlt : n < 2 ^ 32) (rest : List InItem) :
    readCount limit (itemsOf (be32 (BitVec.ofNat 32 n)) ++ rest) = .ok n rest := by
  refine (readCount_of_bytes limit _ _ _ _ rest).trans ?_
  rw [countOfBytes_be32, BitVec.toNat_ofNat, Nat.mod_eq_of_lt hlt, if_neg (Nat.not_lt.mpr hlimit)]

/-- A stream of whole bytes is read as many bytes as it has (20_memory.md R53). -/
theorem takeBytes_pack {S : Nat} {s : Bits} (h : s.length = 8 * S) (rest : List InItem) :
    takeBytes S (itemsOf (pack s) ++ rest) = .ok (pack s) rest := by
  refine takeBytes_ok.mpr ⟨?_, rfl⟩
  rw [pack_length (by omega)]
  omega

theorem unpack_pack_of_length {S : Nat} {s : Bits} (h : s.length = 8 * S) : unpack (pack s) = s :=
  unpack_pack (by omega)

/-- The signs are summed up from the first `n` bits of their stream (R193). -/
theorem decodeSigns_pack {n : Nat} {sb : Bits} (h : sb.length = 8 * ceilDiv8 n) (rest : List InItem) :
    decodeSigns n (itemsOf (pack sb) ++ rest) = .ok (signsOf false (sb.take n)) rest := by
  rw [decodeSigns, takeBytes_pack h, ok_andThen, unpack_pack_of_length h]

theorem takePlanes_pack {S : Nat} {pbs : List Bits} (h : ∀ p ∈ pbs, p.length = 8 * S) (rest : List InItem) :
    takePlanes pbs.length S (itemsOf (pbs.flatMap pack) ++ rest) = .ok pbs rest := by
  induction pbs with
  | nil => rfl
  | cons p pbs ih =>
    obtain ⟨hp, hpbs⟩ := List.forall_mem_cons.mp h
    rw [List.flatMap_cons, itemsOf_append, List.append_assoc, List.length_cons, takePlanes, takeBytes_pack hp, ok_andThen,
      ih hpbs, ok_andThen, unpack_pack_of_length hp]

/-! ## The exponent stream -/

/-- The exponents that the deltas lead to, from exponent `prev` on (R194). -/
def expsOf (sh : Shape) : Nat → List Int → List Nat
  | _, [] => []
  | prev, d :: ds => expAdv sh prev d :: expsOf sh (expAdv sh prev d) ds

/-- A reader that delivers the codewords of the deltas has their exponents decoded. -/
theorem expLoop_of_delivers (sh : Shape) (prev : Nat) {ds : List Int} (hds : ∀ d ∈ ds, InVlcRange d) {r r' : BitReader}
    (h : Delivers BitReader.read1 r (codewords ds) r') : expLoop sh ds.length prev r = .ok (expsOf sh prev ds) r' := by
  induction ds generalizing prev r with
  | nil => cases h; rfl
  | cons d ds ih =>
    obtain ⟨hd, hds⟩ := List.forall_mem_cons.mp hds
    rw [codewords_cons] at h
    obtain ⟨r1, hfirst, hrest⟩ := delivers_append.mp h
    have hdecode := (codewordOf_codeword hd).vlcDecode_eq hfirst
    simp [expLoop, hdecode, ih _ hds hrest, expsOf]

/-- A reader that delivers fewer than 8 bits and then has none left had just these at hand: a byte taken on the way would
have left 7 more to read. -/
theorem eq_of_delivers_short {r : BitReader} {bs : Bits} {items : List InItem}
    (h : Delivers BitReader.read1 r bs ⟨[], items⟩) (hshort : bs.length < 8) : r = ⟨bs, items⟩ := by
  induction bs generalizing r with
  | nil => exact h
  | cons b bs ih =>
    obtain ⟨r1, hread, hrest⟩ := h
    obtain rfl := ih hrest (Nat.lt_of_succ_lt hshort)
    match r, hread with
    | ⟨_ :: _, _⟩, hread => cases hread; rfl
    | ⟨[], .byte c :: _⟩, hread =>
      cases hread
      simp at hshort

/-- The codewords are read with the pad bits of their last byte dropped (R194, R195): no byte is taken that holds pad bits
alone. -/
theorem decodeExps_pack (sh : Shape) {ds : List Int} {xpad : Bits} (hds : ∀ d ∈ ds, InVlcRange d)
    (hlen : (codewords ds ++ xpad).length = 8 * ceilDiv8 (codewords ds).length) (rest : List InItem) :
    decodeExps sh ds.length (itemsOf (pack (codewords ds ++ xpad)) ++ rest) = .ok (expsOf sh 0 ds) rest := by
  have hpad : xpad.length < 8 := by
    rw [List.length_append, ceilDiv8] at hlen
    omega
  have hbits := bitReader_delivers (pack (codewords ds ++ xpad)) rest
  rw [unpack_pack_of_length hlen] at hbits
  obtain ⟨r, hcodewords, hdropped⟩ := delivers_append.mp hbits
  obtain rfl := eq_of_delivers_short hdropped hpad
  have hloop := expLoop_of_delivers sh 0 hds hcodewords
  rw [decodeExps, itemsOf, hloop]

/-! ## A whole container -/

/-- A container at the front of IN decodes to what its streams reassemble to, and its bytes alone are taken (R190, R196). -/
theorem decodeContainer_layout {cfg : Config} {L : Layout} (hfits : L.Fits cfg.shape)
    (hlimit : L.n ≤ cfg.maxSamples.toNat) (rest : List InItem) :
    decodeContainer cfg (itemsOf L.bytes ++ rest) =
      .ok (reassemble cfg.shape L.n (signsOf false (L.sb.take L.n)) (expsOf cfg.shape 0 L.ds) L.pbs) rest := by
  obtain ⟨hsb, hds, hrange, hxpad, hplanes, hplane⟩ := hfits
  have hexps := decodeExps_pack cfg.shape hrange hxpad
  have hpbs := takePlanes_pack hplane
  rw [hds] at hexps
  rw [hplanes] at hpbs
  simp only [decodeContainer, Layout.bytes, itemsOf_append, List.append_assoc, ok_andThen,
    readCount_be32 hlimit (hlimit.trans_lt cfg.maxSamples.isLt), decodeSigns_pack hsb, hexps, hpbs]

@[simp] theorem reassemble_length (sh : Shape) (n : Nat) (signs : Bits) (exps : List Nat) (planes : List Bits) :
    (reassemble sh n signs exps planes).length = n := by
  simp [reassemble]

/-! ## The container of a list of samples -/

/-- The encoder's container as a layout: every pad bit is 0. -/
def layoutOf (sh : Shape) (vs : List (BitVec 64)) : Layout where
  n := vs.length
  sb := pad8 (signStream sh vs)
  ds := deltas sh vs
  xpad := List.replicate (padCount (codewords (deltas sh vs)).length) false
  pbs := (List.range sh.mantBits).map fun i => pad8 (planeStream sh vs i)

theorem layoutOf_bytes (sh : Shape) (vs : List (BitVec 64)) : (layoutOf sh vs).bytes = container sh vs := by
  rw [Layout.bytes, container, layoutOf, List.flatMap_map, ← pad8]

theorem inVlcRange_expDiff (sh : Shape) (prev curr : Nat) : InVlcRange (expDiff sh prev curr) := by
  have hmag := expDiff_natAbs_le_1024 sh prev curr
  exact ⟨by omega, by omega⟩

theorem inVlcRange_of_mem_deltas {sh : Shape} {vs : List (BitVec 64)} {d : Int} (h : d ∈ deltas sh vs) :
    InVlcRange d := by
  rw [deltas, zipWith_cons_eq_map_range] at h
  obtain ⟨k, -, rfl⟩ := List.mem_map.mp h
  exact inVlcRange_expDiff sh _ _

theorem layoutOf_fits (sh : Shape) (vs : List (BitVec 64)) : (layoutOf sh vs).Fits sh where
  sb := by simp [layoutOf]
  ds := by simp [layoutOf, deltas]
  range _ hd := inVlcRange_of_mem_deltas hd
  xpad := by simp [layoutOf, add_padCount]
  planes := by simp [layoutOf]
  plane p hp := by
    obtain ⟨i, -, rfl⟩ := List.mem_map.mp hp
    simp [layoutOf]

/-! ## The streams give the fields back -/

theorem pad8_take (s : Bits) : (pad8 s).take s.length = s := by
  rw [pad8, List.take_left]

theorem pad8_getD {s : Bits} {k : Nat} (h : k < s.length) : (pad8 s).getD k false = s.getD k false := by
  rw [pad8, List.getD_append _ _ _ _ h]

/-- Summing up the sign bits undoes taking each with the one before it (R193 and 42_chunk_encoder.md R166). -/
theorem signsOf_zipWith (sh : Shape) (p : BitVec 64) (vs : List (BitVec 64)) :
    signsOf (getSign sh p) (List.zipWith (fun p v => getSign sh p ^^ getSign sh v) (p :: vs) vs) =
      vs.map (getSign sh) := by
  induction vs generalizing p with
  | nil => rfl
  | cons v vs ih => simp [signsOf, ih]

/-- Adding up the deltas undoes taking differences (R194 and 42_chunk_encoder.md R168). -/
theorem expsOf_zipWith (sh : Shape) (p : BitVec 64) (vs : List (BitVec 64)) :
    expsOf sh (getExp sh p) (List.zipWith (fun p v => expDiff sh (getExp sh p) (getExp sh v)) (p :: vs) vs) =
      vs.map (getExp sh) := by
  induction vs generalizing p with
  | nil => rfl
  | cons v vs ih => simp [expsOf, expAdv_expDiff _ (getExp_lt sh v), ih]

theorem signsOf_layoutOf (sh : Shape) (vs : List (BitVec 64)) :
    signsOf false ((layoutOf sh vs).sb.take (layoutOf sh vs).n) = vs.map (getSign sh) := by
  have htake : (layoutOf sh vs).sb.take (layoutOf sh vs).n = signStream sh vs := by
    simpa [layoutOf] using pad8_take (signStream sh vs)
  rw [htake, ← getSign_zero sh]
  exact signsOf_zipWith sh 0#64 vs

theorem expsOf_layoutOf (sh : Shape) (vs : List (BitVec 64)) :
    expsOf sh 0 (layoutOf sh vs).ds = vs.map (getExp sh) := by
  rw [← getExp_zero sh]
  exact expsOf_zipWith sh 0#64 vs

/-- Bit `i` of a mantissa is the bit of plane `i`, flipped when the exponent is odd (R197). -/
theorem mantissaAt_testBit (k : Nat) (odd : Bool) (ps : List Bits) (i : Nat) :
    (mantissaAt k odd ps).testBit i = (decide (i < ps.length) && ((ps.getD i []).getD k false ^^ odd)) := by
  induction ps generalizing i with
  | nil => simp [mantissaAt]
  | cons p ps ih =>
    rw [mantissaAt, Nat.add_comm, ← Nat.bit_val]
    cases i with
    | zero => rw [Nat.testBit_bit_zero]; rfl
    | succ i => simp [Nat.testBit_bit_succ, ih]

/-- A plane holds the mantissa bits of the samples, flipped where the exponent is odd (42_chunk_encoder.md R167). -/
theorem layoutOf_plane_getD {sh : Shape} {vs : List (BitVec 64)} {i k : Nat} (hi : i < sh.mantBits)
    (hk : k < vs.length) : ((layoutOf sh vs).pbs.getD i []).getD k false =
      ((getMantissa sh vs[k]).testBit i ^^ (getExp sh vs[k]).testBit 0) := by
  have hplane : (layoutOf sh vs).pbs.getD i [] = pad8 (planeStream sh vs i) := by simp [layoutOf, hi]
  rw [hplane, pad8_getD (by simpa using hk)]
  simp [planeStream, hk]

theorem mantissaAt_layoutOf (sh : Shape) {vs : List (BitVec 64)} {k : Nat} (hk : k < vs.length) :
    mantissaAt k ((getExp sh vs[k]).testBit 0) (layoutOf sh vs).pbs = getMantissa sh vs[k] := by
  have hplanes : (layoutOf sh vs).pbs.length = sh.mantBits := (layoutOf_fits sh vs).planes
  apply Nat.eq_of_testBit_eq
  intro i
  rw [mantissaAt_testBit, hplanes]
  by_cases hi : i < sh.mantBits
  · rw [layoutOf_plane_getD hi hk, Bool.xor_assoc, Bool.xor_self, Bool.xor_false, decide_eq_true hi, Bool.true_and]
  · simp [getMantissa, Nat.testBit_mod_two_pow, hi]

/-- The samples of the encoder's container are those it was made of. -/
theorem reassemble_layoutOf {sh : Shape} {vs : List (BitVec 64)} (hwidth : AllOfWidth sh vs) :
    reassemble sh vs.length (vs.map (getSign sh)) (vs.map (getExp sh)) (layoutOf sh vs).pbs = vs := by
  apply List.ext_getElem
  · simp
  · intro k _ hk
    have hsign : (vs.map (getSign sh)).getD k false = getSign sh vs[k] := by simp [hk]
    have hexp : (vs.map (getExp sh)).getD k 0 = getExp sh vs[k] := by simp [hk]
    simp only [reassemble, List.getElem_map, List.getElem_range, hsign, hexp, mantissaAt_layoutOf sh hk]
    exact fieldsRebuildTheSample sh vs[k] (hwidth _ (List.getElem_mem hk))

/-- Decoding the container of W-bit samples gives the samples (R200). -/
theorem decodeContainer_container {cfg : Config} {vs : List (BitVec 64)} (hwidth : AllOfWidth cfg.shape vs)
    (hlimit : vs.length ≤ cfg.maxSamples.toNat) (rest : List InItem) :
    decodeContainer cfg (itemsOf (container cfg.shape vs) ++ rest) = .ok vs rest := by
  rw [← layoutOf_bytes, decodeContainer_layout (layoutOf_fits cfg.shape vs) hlimit, signsOf_layoutOf, expsOf_layoutOf]
  exact congrArg (ReadResult.ok · rest) (reassemble_layoutOf hwidth)

/-! ## The round trip -/

theorem runAll_singleton (i : Instr) (s : State) : runAll [i] s = exec i s := by
  rw [runAll]
  cases exec i s <;> rfl

/-- A SERIALIZE that ends in OK has handed over every byte of the chunk (42_chunk_encoder.md R175). -/
theorem out_of_exec_serialize_ok {s t : State} (h : exec .serialize s = .next t) (hok : t.rsp.status = 0) :
    t.out = s.out ++ s.chunk.bytes := by
  rcases execSerialize_cases s with ⟨-, hx⟩ | ⟨used, -, hx⟩ | ⟨front, back, used, -, -, -, hx⟩ <;>
    cases hx.symm.trans h
  · cases hok
  · rfl
  · cases hok

/-- If the encoder's commands end in OK, the sink has taken the whole container. -/
theorem out_of_encodeProgram_ok {s t : State} {hint : BitVec 32} {vs : List (BitVec 64)}
    (hwidth : AllOfWidth s.config.shape vs) (hlimit : vs.length ≤ s.config.maxSamples.toNat)
    (hrun : runAll (encodeProgram hint vs) s = .next t) (hok : t.rsp.status = 0) :
    t.out = s.out ++ container s.config.shape vs := by
  obtain ⟨r, hbuild⟩ := runAll_new_appends s hint hwidth hlimit
  rw [encodeProgram, runAll_append hbuild, runAll_cons (exec_finalize_of_opened rfl), runAll_singleton] at hrun
  rw [← align_chunkOf_bytes]
  exact out_of_exec_serialize_ok hrun hok

/-- Settles O50: what SERIALIZE emitted with success is the container of the samples, and that decodes to them. -/
theorem chunkRoundTrip : Obligations.ChunkRoundTrip := by
  unfold Obligations.ChunkRoundTrip
  intro s t u hint vs hwidth hlimit hempty hrun hok hcfg hinput
  have hout : t.out = container u.config.shape vs := by
    rw [out_of_encodeProgram_ok hwidth hlimit hrun hok, hempty, List.nil_append, hcfg]
  rw [← hcfg] at hwidth hlimit
  have hdecode := decodeContainer_container hwidth hlimit []
  rw [List.append_nil, ← hout, ← hinput] at hdecode
  exact exec_deserialize_of_ok hdecode

end Sys2Proof.Machine
end

section
/-! PROOFS. The statuses that an instruction and a command can end in (60_exceptions.md R210, R212, R219). -/

namespace Sys2Proof.Machine

/-! ## The statuses of an instruction -/

/-- The statuses an instruction can end in; the value of a VENC decides between its two (R212). -/
def statusesOf : Instr → List Status
  | .new _ => [.ok]
  | .append _ => [.ok, .sequenceError, .countOverflow]
  | .finalize => [.ok, .sequenceError]
  | .serialize => [.ok, .sequenceError, .ioFailure]
  | .deserialize => [.ok, .countOverflow, .corruptStream, .ioFailure]
  | .venc v => if v.toInt.natAbs < 1170 then [.ok] else [.unsupportedMagnitude]
  | .vdec _ _ => [.ok, .corruptStream, .illegalCommand]
  | .zero => [.ok]
  | .plus1 => [.ok]
  | .minus1 => [.ok]
  | .band4 _ _ => [.ok]
  | .band7 _ _ => [.ok]
  | .band10 _ _ => [.ok]
  | .reserved => [.corruptStream]

/-- The window reader raises CORRUPT_STREAM past the valid bits, and nothing else (41_varint_codec.md R145). -/
theorem windowRead1_raisesOnly (w : BitVec 16) (a k : Nat) : RaisesOnly (· = .corruptStream) (windowRead1 w a k) := by
  rcases Nat.lt_or_ge k a with hvalid | hpast
  · rw [windowRead1_of_lt hvalid]; exact raisesOnly_ok _ _
  · rw [windowRead1_of_le hpast]; rfl

/-- VENC of a value in range ends in OK, and of any other in UNSUPPORTED_MAGNITUDE (R212). -/
theorem exec_venc_status {v : BitVec 16} {s t : State} (h : exec (.venc v) s = .next t) :
    ∃ k ∈ statusesOf (.venc v), t.rsp.status = k.code := by
  rcases execVenc_cases v s with ⟨c, hcode, hx⟩ | ⟨hcode, hx⟩ <;> cases hx.symm.trans h
  · have hin : v.toInt.natAbs < 1170 := Nat.lt_succ_of_le (vlcEncode_ok hcode).1
    exact ⟨.ok, by simp [statusesOf, hin], rfl⟩
  · have hout : ¬ v.toInt.natAbs < 1170 := Nat.not_lt.mpr (vlcEncode_error hcode).2
    exact ⟨.unsupportedMagnitude, by simp [statusesOf, hout], rfl⟩

theorem exec_vdec_status {w : BitVec 16} {a : BitVec 5} {s t : State} (h : exec (.vdec w a) s = .next t) :
    ∃ k ∈ statusesOf (.vdec w a), t.rsp.status = k.code := by
  rcases execVdec_cases w a s with ⟨-, hx⟩ | ⟨v, len, r, -, -, hx⟩ | ⟨k, r, -, hraised, hx⟩ <;> cases hx.symm.trans h
  · exact ⟨.illegalCommand, by simp [statusesOf], rfl⟩
  · exact ⟨.ok, by simp [statusesOf], rfl⟩
  · have hread := vlcDecode_raisesOnly (P := (· = .corruptStream)) rfl (windowRead1_raisesOnly w a.toNat) 0
    obtain rfl : k = .corruptStream := hread.of_raised hraised
    exact ⟨.corruptStream, by simp [statusesOf], rfl⟩

/-- Every instruction ends in one of its statuses. -/
theorem exec_status {i : Instr} {s t : State} (h : exec i s = .next t) :
    ∃ k ∈ statusesOf i, t.rsp.status = k.code := by
  cases i with
  | new hint => cases h; exact ⟨.ok, .head _, rfl⟩
  | append a =>
    rcases exec_append_status h with hstatus | hstatus | hstatus
    · exact ⟨.sequenceError, by simp [statusesOf], hstatus⟩
    · exact ⟨.countOverflow, by simp [statusesOf], hstatus⟩
    · exact ⟨.ok, by simp [statusesOf], hstatus⟩
  | finalize =>
    rcases execFinalize_cases s with ⟨-, hx⟩ | ⟨-, hx⟩ <;> cases hx.symm.trans h
    · exact ⟨.sequenceError, by decide, rfl⟩
    · exact ⟨.ok, by decide, rfl⟩
  | serialize =>
    rcases execSerialize_cases s with ⟨-, hx⟩ | ⟨used, -, hx⟩ | ⟨front, back, used, -, -, -, hx⟩ <;>
      cases hx.symm.trans h
    · exact ⟨.sequenceError, by decide, rfl⟩
    · exact ⟨.ok, by decide, rfl⟩
    · exact ⟨.ioFailure, by decide, rfl⟩
  | deserialize =>
    rcases execDeserialize_cases s with ⟨vs, items, -, hx⟩ | ⟨k, items, hraised, hx⟩ <;> cases hx.symm.trans h
    · exact ⟨.ok, by decide, rfl⟩
    · have hread := decodeContainer_raisesOnly (P := (· ∈ statusesOf .deserialize)) (cfg := s.config) (by decide)
        (by decide) (fun _ => by decide) s.input
      exact ⟨k, hread.of_raised hraised, rfl⟩
  | venc v => exact exec_venc_status h
  | vdec w a => exact exec_vdec_status h
  | zero => cases h; exact ⟨.ok, .head _, rfl⟩
  | plus1 => cases h; exact ⟨.ok, .head _, rfl⟩
  | minus1 => cases h; exact ⟨.ok, .head _, rfl⟩
  | band4 neg offset => cases h; exact ⟨.ok, .head _, rfl⟩
  | band7 neg offset => cases h; exact ⟨.ok, .head _, rfl⟩
  | band10 neg offset => cases h; exact ⟨.ok, .head _, rfl⟩
  | reserved => cases h; exact ⟨.corruptStream, .head _, rfl⟩

/-! ## UNSUPPORTED_MAGNITUDE -/

theorem Status.code_eq_one_iff {k : Status} : k.code = 1 ↔ k = .unsupportedMagnitude := by cases k <;> decide

/-- VENC of a value without a codeword (41_varint_codec.md R140). -/
theorem exec_venc_of_large {v : BitVec 16} (s : State) (h : 1170 ≤ v.toInt.natAbs) :
    exec (.venc v) s = .next (respond .unsupportedMagnitude 0#64 0#5 s) := by
  have hcode : vlcEncode (int16 v) = .error .unsupportedMagnitude := vlcEncode_of_large h
  simp [exec, execVenc, hcode]

/-- Of all instructions a VENC of a large value alone has the status. -/
theorem eq_venc_of_unsupportedMagnitude_mem {i : Instr} (h : .unsupportedMagnitude ∈ statusesOf i) :
    ∃ v : BitVec 16, i = .venc v ∧ 1170 ≤ v.toInt.natAbs := by
  cases i with
  | venc v =>
    refine ⟨v, rfl, Nat.not_lt.mp fun hin => ?_⟩
    simp [statusesOf, hin] at h
  | _ => simp [statusesOf] at h

/-- Settles O30: the codec refuses every large value, and `exec_status` leaves no other instruction with the status. -/
theorem unsupportedMagnitudeOnlyFromVenc : Obligations.UnsupportedMagnitudeOnlyFromVenc := by
  unfold Obligations.UnsupportedMagnitudeOnlyFromVenc
  refine ⟨fun v hv => vlcEncode_of_large hv, fun v s hv => exec_venc_of_large s hv, fun i s t h hone => ?_⟩
  obtain ⟨k, hk, hstatus⟩ := exec_status h
  obtain rfl := Status.code_eq_one_iff.mp (hstatus.symm.trans hone)
  exact eq_venc_of_unsupportedMagnitude_mem hk

/-! ## The statuses of a command -/

/-- The row of a command's code holds every status of the instruction it decodes to (30_encoding.md R81). -/
theorem statusesOf_subset_statusTable {c : Command} {i : Instr} (h : decodeCommand c = .ok i) :
    statusesOf i ⊆ statusTable c.op.toNat := by
  unfold decodeCommand at h
  split at h
  next => cases h
  split at h
  next hop => cases h; rw [hop]; simp [statusesOf, statusTable]
  next hop => cases h; rw [hop]; simp [statusesOf, statusTable]
  next hop => cases h; rw [hop]; decide
  next hop => cases h; rw [hop]; decide
  next hop => cases h; rw [hop]; decide
  next hop => cases h; rw [hop, statusesOf]; split <;> decide
  next hop =>
    unfold decodeVdec at h
    split at h
    next => cases h
    split at h
    next => cases h
    next => cases h; rw [hop]; simp [statusesOf, statusTable]
  next => cases h

/-- Any command word can be illegal (R211). -/
theorem illegalCommand_mem_statusTable (op : Nat) : .illegalCommand ∈ statusTable op := by
  unfold statusTable; split <;> decide

/-- A command ends in a status of its row (R219). -/
theorem issueCommand_status {s t : State} (h : issueCommand s = .next t) :
    ∃ k ∈ statusTable (fetch s).op.toNat, t.rsp.status = k.code := by
  cases hdecode : decodeCommand (fetch s) with
  | ok i =>
    rw [issueCommand_of_decode hdecode] at h
    obtain ⟨k, hk, hstatus⟩ := exec_status h
    exact ⟨k, statusesOf_subset_statusTable hdecode hk, hstatus⟩
  | error e =>
    rw [issueCommand_of_illegal hdecode] at h
    cases h
    exact ⟨.illegalCommand, illegalCommand_mem_statusTable _, rfl⟩

/-! ## Each status of the table occurs -/

/-- A fresh F32 block, built for chunks of at most one sample, whose CMD holds `cmd`. -/
def oneSampleBlock (cmd : BitVec 32) : State := { State.resetFor ⟨.f32, 1#32⟩ with cmd := cmd }

/-- A state in which the command with code `op` ends in a given status of its row. Its chunk is one that NEW, APPEND,
FINALIZE and SERIALIZE lead to. -/
def statusWitness (op : Nat) : Status → State
  -- SERIALIZE finds an aligned chunk, any other command a fresh one; IN offers the count 0, and VDEC has 16 valid bits.
  | .ok =>
    { oneSampleBlock (BitVec.ofNat 32 op) with
      chunk := if op = 4 then (Chunk.fresh .f32).align else Chunk.fresh .f32
      input := itemsOf (be32 0#32), argB := 16#8 }
  -- VENC of the smallest value that has no codeword.
  | .unsupportedMagnitude => { oneSampleBlock (BitVec.ofNat 32 op) with argA := 1170#64 }
  -- Nothing is on IN, and VDEC has no valid bit.
  | .corruptStream => oneSampleBlock (BitVec.ofNat 32 op)
  -- The first transfer fails, be it to the sink or from the source.
  | .ioFailure =>
    { oneSampleBlock (BitVec.ofNat 32 op) with
      chunk := (Chunk.fresh .f32).align, sinkAnswers := [.fail], input := [.fail] }
  -- A SERIALIZED chunk takes none of the three commands that need a phase.
  | .sequenceError =>
    { oneSampleBlock (BitVec.ofNat 32 op) with chunk := (Chunk.fresh .f32).align.inPhase .serialized }
  -- The chunk holds the one sample it may hold, and IN offers the count 2.
  | .countOverflow =>
    { oneSampleBlock (BitVec.ofNat 32 op) with
      chunk := (Chunk.fresh .f32).push .f32 0#64 [false, false], input := itemsOf (be32 2#32) }
  -- A reserved bit of CMD is set.
  | .illegalCommand => oneSampleBlock (BitVec.ofNat 32 (16 + op))

/-- RSP_STATUS after an outcome that goes on. -/
def finalStatus : Host.Outcome State Fault Refusal → Option (BitVec 4)
  | .next t => some t.rsp.status
  | .fault _ => none
  | .refused _ => none

theorem finalStatus_eq_some_iff {o : Host.Outcome State Fault Refusal} {c : BitVec 4} :
    finalStatus o = some c ↔ ∃ t, o = .next t ∧ t.rsp.status = c := by
  cases o <;> simp [finalStatus]

theorem statusWitness_op : ∀ op < 16, ∀ k ∈ statusTable op, (fetch (statusWitness op k)).op.toNat = op := by
  decide +kernel

theorem statusWitness_finalStatus :
    ∀ op < 16, ∀ k ∈ statusTable op, finalStatus (issueCommand (statusWitness op k)) = some k.code := by
  decide +kernel

/-- Settles O56: a command ends in a status of the instruction it decodes to, and each status has its witness. (The
obligation's own name in lower case is the table's.) -/
theorem statusTable_exact : Obligations.StatusTable := by
  unfold Obligations.StatusTable
  refine ⟨fun s t h => issueCommand_status h, fun op hop k hk => ?_, rfl, rfl, rfl, rfl, rfl, rfl, rfl⟩
  obtain ⟨t, hissue, hstatus⟩ := finalStatus_eq_some_iff.mp (statusWitness_finalStatus op hop k hk)
  exact ⟨statusWitness op k, t, statusWitness_op op hop k hk, hissue, hstatus⟩

end Sys2Proof.Machine
end

section
/-! PROOFS. The reset values of 10_state.md R37 at power-on and after the reset event (70_reset_and_hazards.md R240). -/

namespace Sys2Proof.Machine

/-- The elements of R37 are the chunk, the response registers and two channels: a fresh chunk, cleared responses and
empty OUT and SAMPLES_OUT give all of them their reset values. -/
theorem hasResetValues_of_fresh {cfg : Config} {t : State} (hconfig : t.config = cfg)
    (hchunk : t.chunk = Chunk.fresh cfg.shape) (hrsp : t.rsp = Response.cleared) (hout : t.out = [])
    (hsamples : t.samplesOut = []) : HasResetValues cfg t := by
  unfold HasResetValues
  rw [hchunk, hrsp]
  exact ⟨hconfig, rfl, rfl, rfl, rfl, rfl, rfl, rfl, rfl, rfl, rfl, rfl, rfl, hout, hsamples⟩

theorem resetFor_hasResetValues (cfg : Config) : HasResetValues cfg (State.resetFor cfg) :=
  hasResetValues_of_fresh (resetFor_config cfg) (resetFor_chunk cfg) (resetFor_rsp cfg) (resetFor_out cfg)
    (resetFor_samplesOut cfg)

theorem resetEvent_hasResetValues (s : State) : HasResetValues s.config (resetEvent s) :=
  hasResetValues_of_fresh (resetEvent_config s) (resetEvent_chunk s) (resetEvent_rsp s) (resetEvent_out s)
    (resetEvent_samplesOut s)

/-- The host's reset runs the reset event, with the action used up. -/
theorem step_reset {s : State} {rest : List HostAction} (h : s.actions = .reset :: rest) :
    step s = .next (resetEvent { s with actions := rest }) := by
  rw [step_act h, act]

/-- Settles O10: power-on and the reset event both leave a fresh block, and the event leaves IN and the sink alone. -/
theorem resetEventValues : Obligations.ResetEventValues := by
  unfold Obligations.ResetEventValues
  refine ⟨resetFor_hasResetValues, fun s rest hactions => ?_⟩
  exact ⟨resetEvent { s with actions := rest }, step_reset hactions, resetEvent_hasResetValues _, resetEvent_input _,
    resetEvent_sinkAnswers _, resetEvent_sinkStore _⟩

end Sys2Proof.Machine
end

section
/-! PROOFS. The two encodings (30_encoding.md R81 to R91): decoding an encoded instruction gives it back, the words that
decode to each command, and exactly the illegal words of R84. -/

namespace Sys2Proof

/-! ## Codewords in a window -/

theorem decodeWindow_of_band4 {w : BitVec 16} (h : w.extractLsb' 13 3 = 0b110#3) :
    decodeWindow w = .band4 (w.getLsbD 12) (w.extractLsb' 8 4) := by
  obtain ⟨-, -, -, -, hband4, -⟩ := windowClassesPartition w
  exact hband4 ((and_prefixMask_eq_iff (n := 3) (k := 13) w 0b110#3).mpr h)

theorem decodeWindow_of_band7 {w : BitVec 16} (h : w.extractLsb' 12 4 = 0b1110#4) :
    decodeWindow w = .band7 (w.getLsbD 11) (w.extractLsb' 4 7) := by
  obtain ⟨-, -, -, -, -, hband7, -⟩ := windowClassesPartition w
  exact hband7 ((and_prefixMask_eq_iff (n := 4) (k := 12) w 0b1110#4).mpr h)

theorem decodeWindow_of_band10 {w : BitVec 16} (h : w.extractLsb' 11 5 = 0b11110#5) :
    decodeWindow w = .band10 (w.getLsbD 10) (w.extractLsb' 0 10) := by
  obtain ⟨-, -, -, -, -, -, hband10, -⟩ := windowClassesPartition w
  exact hband10 ((and_prefixMask_eq_iff (n := 5) (k := 11) w 0b11110#5).mpr h)

/-- The fields of a band stand in its window where R87 puts them: prefix, sign bit, offset, and `k` bits below. -/
theorem fields_of_bandWindow {p n k : Nat} (pre : BitVec p) (neg : Bool) (off : BitVec n) (low : BitVec k) :
    (pre ++ bit1 neg ++ off ++ low).extractLsb' (k + n + 1) p = pre ∧
    (pre ++ bit1 neg ++ off ++ low).getLsbD (k + n) = neg ∧
    (pre ++ bit1 neg ++ off ++ low).extractLsb' k n = off := by
  refine ⟨?_, ?_, ?_⟩
  · rw [BitVec.extractLsb'_append_eq_of_le (by omega), BitVec.extractLsb'_append_eq_of_le (by omega)]
    have hstart : k + n + 1 - k - n = 1 := by omega
    rw [hstart, BitVec.extractLsb'_append_eq_left]
  · rw [BitVec.getLsbD_append, if_neg (by omega), BitVec.getLsbD_append, if_neg (by omega)]
    have hstart : k + n - k - n = 0 := by omega
    rw [hstart, BitVec.getLsbD_append, if_pos Nat.one_pos, bit1, BitVec.getLsbD_ofBool]
    simp
  · rw [BitVec.extractLsb'_append_eq_of_le le_rfl, Nat.sub_self, BitVec.extractLsb'_append_eq_right]

theorem decodeWindow_band4 (neg : Bool) (off : BitVec 4) :
    decodeWindow (0b110#3 ++ bit1 neg ++ off ++ 0#8) = .band4 neg off := by
  obtain ⟨hpre, hneg, hoff⟩ := fields_of_bandWindow 0b110#3 neg off 0#8
  rw [decodeWindow_of_band4 hpre]
  exact congrArg₂ Instr.band4 hneg hoff

theorem decodeWindow_band7 (neg : Bool) (off : BitVec 7) :
    decodeWindow (0b1110#4 ++ bit1 neg ++ off ++ 0#4) = .band7 neg off := by
  obtain ⟨hpre, hneg, hoff⟩ := fields_of_bandWindow 0b1110#4 neg off 0#4
  rw [decodeWindow_of_band7 hpre]
  exact congrArg₂ Instr.band7 hneg hoff

theorem decodeWindow_band10 (neg : Bool) (off : BitVec 10) :
    decodeWindow (0b11110#5 ++ bit1 neg ++ off) = .band10 neg off := by
  obtain ⟨hpre, hneg, hoff⟩ := fields_of_bandWindow 0b11110#5 neg off 0#0
  rw [BitVec.append_zero_width] at hpre hneg hoff
  rw [decodeWindow_of_band10 hpre]
  exact congrArg₂ Instr.band10 hneg hoff

/-! ## Decoding what was encoded -/

/-- An operand in the low bits of its register is the slice that R82 reads. -/
theorem extractLsb'_setWidth_self {n m : Nat} (h : n ≤ m) (x : BitVec n) : (x.setWidth m).extractLsb' 0 n = x := by
  rw [BitVec.extractLsb'_setWidth_of_le (by omega), BitVec.extractLsb'_eq_self]

/-- VDEC's checks pass for the fields of a well-formed VDEC (R84). -/
theorem decodeVdec_of_fields (cmd : BitVec 32) (w : BitVec 16) {a : BitVec 5} (h : a.toNat ≤ 16) :
    decodeVdec ⟨cmd, w.setWidth 64, a.setWidth 8⟩ = .ok (.vdec w a) := by
  have havail : (a.setWidth 8).extractLsb' 0 5 = a := extractLsb'_setWidth_self (by decide) a
  have hrsvd : (a.setWidth 8).extractLsb' 5 3 = 0#3 := by
    apply BitVec.eq_of_toNat_eq
    rw [BitVec.extractLsb'_toNat, BitVec.toNat_setWidth, Nat.shiftRight_eq_div_pow, BitVec.toNat_ofNat]
    omega
  simp [decodeVdec, Command.argRsvd, Command.avail, hrsvd, havail, h, extractLsb'_setWidth_self]

/-- Settles O1: one constructor at a time; the operands of a command and the fields of a codeword are the slices they
were put in as. -/
theorem decodeEncodeRoundTrip : Obligations.DecodeEncodeRoundTrip := by
  unfold Obligations.DecodeEncodeRoundTrip
  intro i hi
  cases i with
  | new hint => simp [encode, decode, decodeCommand, Command.rsvd, Command.op, extractLsb'_setWidth_self]
  | append a => simp [encode, decode, decodeCommand, Command.rsvd, Command.op]
  | finalize => rfl
  | serialize => rfl
  | deserialize => rfl
  | venc v => simp [encode, decode, decodeCommand, Command.rsvd, Command.op, extractLsb'_setWidth_self]
  | vdec w a =>
    have hoperands := decodeVdec_of_fields 7#32 w (of_decide_eq_true hi)
    simp [encode, decode, decodeCommand, Command.rsvd, Command.op, hoperands]
  | zero => rfl
  | plus1 => rfl
  | minus1 => rfl
  | band4 neg off => exact congrArg Except.ok (decodeWindow_band4 neg off)
  | band7 neg off => exact congrArg Except.ok (decodeWindow_band7 neg off)
  | band10 neg off => exact congrArg Except.ok (decodeWindow_band10 neg off)
  | reserved => rfl

/-- Settles O3: the tables of R81, R82 and R87, evaluated. -/
theorem writtenOutWordsDecode : Obligations.WrittenOutWordsDecode := by
  unfold Obligations.WrittenOutWordsDecode
  exact ⟨rfl, rfl, rfl, rfl, rfl, rfl, rfl⟩

/-! ## The words that decode -/

theorem decodeVdec_eq_ok_iff {c : Command} {i : Instr} :
    decodeVdec c = .ok i ↔
      c.argRsvd = 0#3 ∧ c.avail.toNat ≤ 16 ∧ i = .vdec (c.argA.extractLsb' 0 16) c.avail := by
  by_cases hargs : c.argRsvd = 0#3
  · by_cases havail : 16 < c.avail.toNat
    · simp [decodeVdec, hargs, havail]
    · simp [decodeVdec, hargs, havail, Nat.not_lt.mp havail, eq_comm]
  · simp [decodeVdec, hargs]

/-- The words that decode and what they decode to (R81, R82, R84). -/
theorem decodeCommand_eq_ok_iff {c : Command} {i : Instr} :
    decodeCommand c = .ok i ↔ c.rsvd = 0#28 ∧
      (c.op = 1#4 ∧ i = .new (c.argA.extractLsb' 0 32) ∨
       c.op = 2#4 ∧ i = .append c.argA ∨
       c.op = 3#4 ∧ i = .finalize ∨
       c.op = 4#4 ∧ i = .serialize ∨
       c.op = 5#4 ∧ i = .deserialize ∨
       c.op = 6#4 ∧ i = .venc (c.argA.extractLsb' 0 16) ∨
       c.op = 7#4 ∧ c.argRsvd = 0#3 ∧ c.avail.toNat ≤ 16 ∧ i = .vdec (c.argA.extractLsb' 0 16) c.avail) := by
  constructor
  · intro h
    unfold decodeCommand at h
    split at h
    next => cases h
    next hrsvd =>
      refine ⟨not_not.mp hrsvd, ?_⟩
      split at h
      next hop => cases h; exact .inl ⟨BitVec.eq_of_toNat_eq hop, rfl⟩
      next hop => cases h; exact .inr (.inl ⟨BitVec.eq_of_toNat_eq hop, rfl⟩)
      next hop => cases h; exact .inr (.inr (.inl ⟨BitVec.eq_of_toNat_eq hop, rfl⟩))
      next hop => cases h; exact .inr (.inr (.inr (.inl ⟨BitVec.eq_of_toNat_eq hop, rfl⟩)))
      next hop => cases h; exact .inr (.inr (.inr (.inr (.inl ⟨BitVec.eq_of_toNat_eq hop, rfl⟩))))
      next hop => cases h; exact .inr (.inr (.inr (.inr (.inr (.inl ⟨BitVec.eq_of_toNat_eq hop, rfl⟩)))))
      next hop =>
        obtain ⟨hargs, havail, rfl⟩ := decodeVdec_eq_ok_iff.mp h
        exact .inr (.inr (.inr (.inr (.inr (.inr ⟨BitVec.eq_of_toNat_eq hop, hargs, havail, rfl⟩)))))
      next => cases h
  · rintro ⟨hrsvd, hop⟩
    rcases hop with ⟨hop, rfl⟩ | ⟨hop, rfl⟩ | ⟨hop, rfl⟩ | ⟨hop, rfl⟩ | ⟨hop, rfl⟩ | ⟨hop, rfl⟩ | ⟨hop, hvdec⟩
    case inr.inr.inr.inr.inr.inr =>
      simpa [decodeCommand, hrsvd, hop] using decodeVdec_eq_ok_iff.mpr hvdec
    all_goals simp [decodeCommand, hrsvd, hop]

/-- A register whose upper bits are 0 holds its lower bits alone. -/
theorem eq_setWidth_of_upper_eq_zero {k m : Nat} {x : BitVec (k + m)} (h : x.extractLsb' k m = 0#m) :
    (x.extractLsb' 0 k).setWidth (k + m) = x := by
  apply BitVec.eq_of_getLsbD_eq
  intro i hi
  rw [BitVec.getLsbD_setWidth, BitVec.getLsbD_extractLsb']
  by_cases hk : i < k
  · simp [hi, hk]
  · have hbit := congrArg (BitVec.getLsbD · (i - k)) h
    have hback : k + (i - k) = i := by omega
    have hm : i - k < m := by omega
    simpa [hk, hback, hm] using hbit.symm

theorem Command.cmd_of_rsvd_eq_zero {c : Command} (h : c.rsvd = 0#28) : c.cmd = c.op.setWidth 32 :=
  (eq_setWidth_of_upper_eq_zero (k := 4) (m := 28) h).symm

theorem Command.argB_of_argRsvd_eq_zero {c : Command} (h : c.argRsvd = 0#3) : c.argB = c.avail.setWidth 8 :=
  (eq_setWidth_of_upper_eq_zero (k := 5) (m := 3) h).symm

/-- The low bits of a register, by a mask. -/
theorem setWidth_extractLsb'_eq_and (n : Nat) {m : Nat} (x : BitVec m) :
    (x.extractLsb' 0 n).setWidth m = x &&& (BitVec.allOnes n).setWidth m := by
  apply BitVec.eq_of_getLsbD_eq
  intro i hi
  simp [hi, Bool.and_comm]

/-- Settles O2: CMD holds the code alone, the slices of ARG_A are its masks, and VDEC's ARG_B holds AVAIL alone. -/
theorem acceptedCommandsEncodeBack : Obligations.AcceptedCommandsEncodeBack := by
  unfold Obligations.AcceptedCommandsEncodeBack
  intro c i h
  obtain ⟨hrsvd, hop⟩ := decodeCommand_eq_ok_iff.mp h
  have hcmd := Command.cmd_of_rsvd_eq_zero hrsvd
  have h16 := setWidth_extractLsb'_eq_and 16 c.argA
  have h64 : c.argA &&& 0xFFFFFFFFFFFFFFFF#64 = c.argA := BitVec.and_allOnes
  have h32 := setWidth_extractLsb'_eq_and 32 c.argA
  rcases hop with ⟨hop, rfl⟩ | ⟨hop, rfl⟩ | ⟨hop, rfl⟩ | ⟨hop, rfl⟩ | ⟨hop, rfl⟩ | ⟨hop, rfl⟩ |
    ⟨hop, hargs, havail, rfl⟩
  case inr.inr.inr.inr.inr.inr =>
    have hargB := Command.argB_of_argRsvd_eq_zero hargs
    simp [encode, Instr.wellFormed, Instr.isCodeword, hcmd, hop, Machine.argAMask, h16, havail, hargB]
  all_goals simp [encode, Instr.wellFormed, Instr.isCodeword, hcmd, hop, Machine.argAMask, h16, h32, h64]

/-! ## The illegal words -/

/-- The words that R84 makes illegal. -/
def Command.Illegal (c : Command) : Prop :=
  c.rsvd ≠ 0 ∨ c.op = 0 ∨ 8 ≤ c.op.toNat ∨ (c.op = 7 ∧ (16 < c.avail.toNat ∨ c.argRsvd ≠ 0))

theorem Command.not_illegal_of_decode_ok {c : Command} {i : Instr} (h : decodeCommand c = .ok i) : ¬ c.Illegal := by
  obtain ⟨hrsvd, hop⟩ := decodeCommand_eq_ok_iff.mp h
  rcases hop with ⟨hop, -⟩ | ⟨hop, -⟩ | ⟨hop, -⟩ | ⟨hop, -⟩ | ⟨hop, -⟩ | ⟨hop, -⟩ | ⟨hop, hargs, havail, -⟩
  case inr.inr.inr.inr.inr.inr => simp [Command.Illegal, hrsvd, hop, hargs, havail]
  all_goals simp [Command.Illegal, hrsvd, hop]

theorem Command.illegal_of_decode_error {c : Command} {e : DecodeError} (h : decodeCommand c = .error e) :
    c.Illegal := by
  unfold decodeCommand at h
  split at h
  next hrsvd => exact .inl hrsvd
  split at h
  next => cases h
  next => cases h
  next => cases h
  next => cases h
  next => cases h
  next => cases h
  next hop =>
    refine .inr (.inr (.inr ⟨BitVec.eq_of_toNat_eq hop, ?_⟩))
    unfold decodeVdec at h
    split at h
    next hargs => exact .inr hargs
    split at h
    next havail => exact .inl havail
    next => cases h
  next h1 h2 h3 h4 h5 h6 h7 =>
    change c.op.toNat ≠ _ at h1 h2 h3 h4 h5 h6 h7
    have hcases : c.op.toNat = 0 ∨ 8 ≤ c.op.toNat := by omega
    exact .inr (hcases.imp BitVec.eq_of_toNat_eq .inl)

end Sys2Proof
end

section
/-! PROOFS. What an instruction can make of the whole state, said once, and what follows of every instruction and every
step: there is always a next state (60_exceptions.md R221), who writes what (10_state.md R28, R31, 20_memory.md R51),
and that errors are precise (60_exceptions.md R221). -/

namespace Sys2Proof.Machine

/-! ## The codec's instructions -/

/-- VENC, VDEC and the codeword classes. -/
def IsCodecInstr (i : Instr) : Prop := (∃ v, i = .venc v) ∨ (∃ w a, i = .vdec w a) ∨ i.isCodeword = true

theorem IsCodecInstr.ne {i : Instr} (hi : IsCodecInstr i) : (∀ hint, i ≠ .new hint) ∧ i ≠ .deserialize := by
  rcases hi with ⟨v, rfl⟩ | ⟨w, a, rfl⟩ | hi
  · exact ⟨nofun, nofun⟩
  · exact ⟨nofun, nofun⟩
  · constructor
    · rintro hint rfl; cases hi
    · rintro rfl; cases hi

/-- The response of a command has a length of at most 16, and on an error it carries nothing (10_state.md R29, R30). -/
structure LegalAnswer (k : Status) (data : BitVec 64) (len : BitVec 5) : Prop where
  len_le : len.toNat ≤ 16
  of_error : k ≠ .ok → data = 0 ∧ len = 0

theorem legalAnswer_error (k : Status) : LegalAnswer k 0#64 0#5 := ⟨by decide, fun _ => ⟨rfl, rfl⟩⟩

theorem legalAnswer_ok (data : BitVec 64) {len : BitVec 5} (h : len.toNat ≤ 16) : LegalAnswer .ok data len :=
  ⟨h, fun hk => absurd rfl hk⟩

theorem CodewordOf.length_le {v : Int} {c : Bits} (h : CodewordOf v c) : c.length ≤ 16 := by
  obtain ⟨-, hlen⟩ := vlcEncode_ok h.vlcEncode_eq
  omega

theorem toNat_ofNat_length_le {n : Nat} (h : n ≤ 16) : (BitVec.ofNat 5 n).toNat ≤ 16 :=
  (Nat.mod_le _ _).trans h

/-- The codec's instructions give a response that depends on their operands alone, and change nothing else
(41_varint_codec.md R140, R145, 20_memory.md R62). -/
theorem exec_codec_responds {i : Instr} (hi : IsCodecInstr i) :
    ∃ k data len, LegalAnswer k data len ∧ ∀ s, exec i s = .next (respond k data len s) := by
  rcases hi with ⟨v, rfl⟩ | ⟨w, a, rfl⟩ | hi
  · cases h : vlcEncode (int16 v) with
    | ok c =>
      have hlen := (vlcEncode_eq_ok_iff.mp h).length_le
      exact ⟨_, _, _, legalAnswer_ok ((windowOf c).setWidth 64) (toNat_ofNat_length_le hlen),
        fun s => by simp [exec, execVenc, h]⟩
    | error k => exact ⟨_, _, _, legalAnswer_error k, fun s => by simp [exec, execVenc, h]⟩
  · by_cases ha : 16 < a.toNat
    · exact ⟨_, _, _, legalAnswer_error .illegalCommand, fun s => by simp [exec, execVdec, ha]⟩
    · cases h : vlcDecode (windowRead1 w a.toNat) 0 with
      | ok d r =>
        obtain ⟨c, hc, hlen, -⟩ := vlcDecode_delivers h
        exact ⟨_, _, _, legalAnswer_ok (sext64 d.1) (toNat_ofNat_length_le (hlen ▸ hc.length_le)),
          fun s => by simp [exec, execVdec, ha, h]⟩
      | raised k r => exact ⟨_, _, _, legalAnswer_error k, fun s => by simp [exec, execVdec, ha, h]⟩
  · cases i with
    | zero => exact ⟨_, _, _, legalAnswer_ok _ (by decide), fun _ => rfl⟩
    | plus1 => exact ⟨_, _, _, legalAnswer_ok _ (by decide), fun _ => rfl⟩
    | minus1 => exact ⟨_, _, _, legalAnswer_ok _ (by decide), fun _ => rfl⟩
    | band4 neg off => exact ⟨_, _, _, legalAnswer_ok _ (by decide), fun _ => rfl⟩
    | band7 neg off => exact ⟨_, _, _, legalAnswer_ok _ (by decide), fun _ => rfl⟩
    | band10 neg off => exact ⟨_, _, _, legalAnswer_ok _ (by decide), fun _ => rfl⟩
    | reserved => exact ⟨_, _, _, legalAnswer_error .corruptStream, fun _ => rfl⟩
    | _ => cases hi

/-! ## The state after an instruction -/

/-- The states that instruction `i` can leave of `s`: the response registers are always written; beside them NEW,
APPEND, FINALIZE and SERIALIZE write the chunk, SERIALIZE hands bytes to the sink, and DESERIALIZE takes items of IN. -/
inductive State.After (s : State) : Instr → State → Prop where
  | answered {i : Instr} {k : Status} {data : BitVec 64} {len : BitVec 5} (hanswer : LegalAnswer k data len)
      (hnew : ∀ hint, i ≠ .new hint) (hdes : i ≠ .deserialize) : State.After s i (respond k data len s)
  | renewed (hint : BitVec 32) :
      State.After s (.new hint) (respond .ok 0#64 0#5 { s with chunk := Chunk.fresh s.config.shape })
  | pushed (a : BitVec 64) {c : Bits} (hphase : s.chunk.phase = .opened) (hcount : s.chunk.count ≠ s.config.maxSamples)
      (hcode : appendCodeword s.config.shape (sampleOf s.config.shape a) s.chunk = .ok c) :
      State.After s (.append a) (respond .ok 0#64 (BitVec.ofNat 5 c.length)
        { s with chunk := s.chunk.push s.config.shape (sampleOf s.config.shape a) c })
  | aligned (hphase : s.chunk.phase = .opened) :
      State.After s .finalize (respond .ok 0#64 0#5 { s with chunk := s.chunk.align })
  | sent (used : Nat) (hphase : s.chunk.phase = .finalized) :
      State.After s .serialize (respond .ok (BitVec.ofNat 64 s.chunk.bytes.length) 0#5
        { s with
          chunk := s.chunk.inPhase .serialized, out := s.out ++ s.chunk.bytes
          sinkStore := s.sinkStore ++ s.chunk.bytes, sinkAnswers := s.sinkAnswers.drop used })
  | cut (front : List Byte) (used : Nat) (hphase : s.chunk.phase = .finalized) :
      State.After s .serialize (respond .ioFailure (BitVec.ofNat 64 front.length) 0#5
        { s with
          chunk := s.chunk.inPhase .failed, out := s.out ++ front
          sinkStore := s.sinkStore ++ front, sinkAnswers := s.sinkAnswers.drop used })
  | delivered {vs : List (BitVec 64)} {items : List InItem} (hread : decodeContainer s.config s.input = .ok vs items) :
      State.After s .deserialize (respond .ok (BitVec.ofNat 64 vs.length) 0#5
        { s with samplesOut := vs, input := items })
  | refused {k : Status} {items : List InItem} (hread : decodeContainer s.config s.input = .raised k items) :
      State.After s .deserialize (respond k 0#64 0#5 { s with input := items })

theorem exec_codec_after {i : Instr} (hi : IsCodecInstr i) (s : State) :
    ∃ t, exec i s = .next t ∧ s.After i t := by
  obtain ⟨k, data, len, hanswer, hx⟩ := exec_codec_responds hi
  obtain ⟨hnew, hdes⟩ := hi.ne
  exact ⟨_, hx s, .answered hanswer hnew hdes⟩

/-- Every instruction answers a next state, and it is one of these. -/
theorem exec_after (i : Instr) (s : State) : ∃ t, exec i s = .next t ∧ s.After i t := by
  cases i with
  | new hint => exact ⟨_, rfl, .renewed hint⟩
  | append a =>
    rcases execAppend_cases a s with ⟨-, hx⟩ | ⟨-, -, hx⟩ | ⟨c, hphase, hcount, hcode, hx⟩ | ⟨k, -, hx⟩
    · exact ⟨_, hx, .answered (legalAnswer_error _) nofun nofun⟩
    · exact ⟨_, hx, .answered (legalAnswer_error _) nofun nofun⟩
    · exact ⟨_, hx, .pushed a hphase hcount hcode⟩
    · exact ⟨_, hx, .answered (legalAnswer_error k) nofun nofun⟩
  | finalize =>
    rcases execFinalize_cases s with ⟨-, hx⟩ | ⟨hphase, hx⟩
    · exact ⟨_, hx, .answered (legalAnswer_error _) nofun nofun⟩
    · exact ⟨_, hx, .aligned hphase⟩
  | serialize =>
    rcases execSerialize_cases s with ⟨-, hx⟩ | ⟨used, hphase, hx⟩ | ⟨front, back, used, hphase, -, -, hx⟩
    · exact ⟨_, hx, .answered (legalAnswer_error _) nofun nofun⟩
    · exact ⟨_, hx, .sent used hphase⟩
    · exact ⟨_, hx, .cut front used hphase⟩
  | deserialize =>
    rcases execDeserialize_cases s with ⟨vs, items, hread, hx⟩ | ⟨k, items, hread, hx⟩
    · exact ⟨_, hx, .delivered hread⟩
    · exact ⟨_, hx, .refused hread⟩
  | venc v => exact exec_codec_after (.inl ⟨v, rfl⟩) s
  | vdec w a => exact exec_codec_after (.inr (.inl ⟨w, a, rfl⟩)) s
  | zero => exact exec_codec_after (.inr (.inr rfl)) s
  | plus1 => exact exec_codec_after (.inr (.inr rfl)) s
  | minus1 => exact exec_codec_after (.inr (.inr rfl)) s
  | band4 neg off => exact exec_codec_after (.inr (.inr rfl)) s
  | band7 neg off => exact exec_codec_after (.inr (.inr rfl)) s
  | band10 neg off => exact exec_codec_after (.inr (.inr rfl)) s
  | reserved => exact exec_codec_after (.inr (.inr rfl)) s

theorem after_of_exec {i : Instr} {s t : State} (h : exec i s = .next t) : s.After i t := by
  obtain ⟨u, hu, hafter⟩ := exec_after i s
  cases hu.symm.trans h
  exact hafter

/-! ## What every instruction keeps -/

/-- Settles O9: whatever the state after an instruction, these fields are none of those it writes. -/
theorem noInstructionWritesCommandRegisters : Obligations.NoInstructionWritesCommandRegisters := by
  unfold Obligations.NoInstructionWritesCommandRegisters
  intro i s t h
  cases after_of_exec h <;> exact ⟨rfl, rfl, rfl, rfl, rfl⟩

/-- Settles O58: SERIALIZE alone has states after it with another OUT, DESERIALIZE alone with another IN or
SAMPLES_OUT. -/
theorem onlyTwoCommandsMoveItems : Obligations.OnlyTwoCommandsMoveItems := by
  unfold Obligations.OnlyTwoCommandsMoveItems
  intro i s t h
  cases after_of_exec h with
  | answered => exact ⟨fun _ _ => ⟨rfl, rfl, rfl, rfl, rfl⟩, fun _ => ⟨rfl, rfl⟩, fun _ => ⟨rfl, rfl, rfl⟩⟩
  | renewed => exact ⟨fun _ _ => ⟨rfl, rfl, rfl, rfl, rfl⟩, nofun, nofun⟩
  | pushed => exact ⟨fun _ _ => ⟨rfl, rfl, rfl, rfl, rfl⟩, nofun, nofun⟩
  | aligned => exact ⟨fun _ _ => ⟨rfl, rfl, rfl, rfl, rfl⟩, nofun, nofun⟩
  | sent => exact ⟨fun hser => absurd rfl hser, fun _ => ⟨rfl, rfl⟩, nofun⟩
  | cut => exact ⟨fun hser => absurd rfl hser, fun _ => ⟨rfl, rfl⟩, nofun⟩
  | delivered => exact ⟨fun _ hdes => absurd rfl hdes, nofun, fun _ => ⟨rfl, rfl, rfl⟩⟩
  | refused => exact ⟨fun _ hdes => absurd rfl hdes, nofun, fun _ => ⟨rfl, rfl, rfl⟩⟩

/-- Settles O57: an instruction that writes more than the response ends in OK, but for SERIALIZE's IO_FAILURE and for
DESERIALIZE. -/
theorem errorsArePrecise : Obligations.ErrorsArePrecise := by
  unfold Obligations.ErrorsArePrecise
  intro i s t h herror hdes hio
  cases after_of_exec h with
  | answered hanswer =>
    obtain ⟨rfl, rfl⟩ := hanswer.of_error (by rintro rfl; exact herror rfl)
    rfl
  | renewed => exact absurd rfl herror
  | pushed => exact absurd rfl herror
  | aligned => exact absurd rfl herror
  | sent => exact absurd rfl herror
  | cut => exact absurd rfl (hio rfl)
  | delivered => exact absurd rfl hdes
  | refused => exact absurd rfl hdes

/-- Settles O18: the states after an instruction that have another phase. -/
theorem phaseChanges : Obligations.PhaseChanges := by
  unfold Obligations.PhaseChanges
  refine ⟨fun i s t h hchanged => ?_, rfl, rfl, rfl, rfl⟩
  cases after_of_exec h with
  | answered => exact absurd rfl hchanged
  | renewed hint => exact .inl ⟨hint, rfl, rfl⟩
  | pushed => exact absurd rfl hchanged
  | aligned hphase => exact .inr (.inl ⟨rfl, hphase, rfl⟩)
  | sent used hphase => exact .inr (.inr ⟨rfl, hphase, .inl ⟨rfl, rfl⟩⟩)
  | cut front used hphase => exact .inr (.inr ⟨rfl, hphase, .inr ⟨rfl, rfl⟩⟩)
  | delivered => exact absurd rfl hchanged
  | refused => exact absurd rfl hchanged

end Sys2Proof.Machine
end

section
/-! PROOFS. The commands that touch the streams or the chunk (20_memory.md R51, 42_chunk_encoder.md R170, R175), those
that do not see it (10_state.md R20), and single steps (00_scope.md R6, 60_exceptions.md R211, R221). -/

namespace Sys2Proof.Machine

/-! ## The streams -/

theorem getD_map_nil (f : Bits → Bits) (hf : f [] = []) (ps : List Bits) (j : Nat) :
    (ps.map f).getD j [] = f (ps.getD j []) := by
  rw [← hf, List.getD_map, hf]

/-- A push puts bits at the end of each stream (42_chunk_encoder.md R165). -/
theorem push_extends (sh : Shape) (v : BitVec 64) (c : Bits) (k : Chunk) :
    k.ss <+: (k.push sh v c).ss ∧ k.xs <+: (k.push sh v c).xs ∧ (k.push sh v c).ps.length = k.ps.length ∧
      ∀ j, k.ps.getD j [] <+: (k.push sh v c).ps.getD j [] := by
  refine ⟨List.prefix_append _ _, List.prefix_append _ _, by simp, fun j => ?_⟩
  rcases Nat.lt_or_ge j k.ps.length with hj | hj
  · rw [getD_push_ps hj]
    exact List.prefix_append _ _
  · rw [List.getD_eq_default _ _ hj]
    exact List.nil_prefix

theorem align_ps_getD (k : Chunk) (j : Nat) : k.align.ps.getD j [] = pad8 (k.ps.getD j []) :=
  getD_map_nil pad8 pad8_nil k.ps j

/-- Settles O19: a push, an alignment and a change of phase leave each stream in front; NEW alone does not. -/
theorem streamsAreAppendOnly : Obligations.StreamsAreAppendOnly := by
  unfold Obligations.StreamsAreAppendOnly
  intro i s t h
  obtain ⟨-, heffect⟩ := exec_effect h
  refine ⟨?_, ?_, ?_⟩
  · rintro ⟨hint, rfl⟩
    cases h
    exact ⟨rfl, rfl, fun p hp => List.eq_of_mem_replicate hp⟩
  · rintro rfl -
    generalize t.chunk = k' at heffect
    cases heffect with
    | keep => exact ⟨0, 0, by simp, by simp, rfl, fun j => ⟨0, by simp⟩⟩
    | align => exact ⟨_, _, rfl, rfl, List.length_map _, fun j => ⟨_, align_ps_getD s.chunk j⟩⟩
  · intro hnew
    generalize t.chunk = k' at heffect
    cases heffect with
    | keep => exact ⟨List.prefix_rfl, List.prefix_rfl, rfl, fun _ => List.prefix_rfl⟩
    | fresh hint => exact absurd rfl (hnew hint)
    | push => exact push_extends _ _ _ _
    | align =>
      refine ⟨List.prefix_append _ _, List.prefix_append _ _, List.length_map _, fun j => ?_⟩
      rw [align_ps_getD]
      exact List.prefix_append _ _
    | leave => exact ⟨List.prefix_rfl, List.prefix_rfl, rfl, fun _ => List.prefix_rfl⟩

/-! ## APPEND, FINALIZE and SERIALIZE -/

/-- The sample of an APPEND is a slice of ARG_A (R82). -/
theorem sampleOf_f32 (a : BitVec 64) : sampleOf .f32 a = (a.extractLsb' 0 32).setWidth 64 := by
  have hwidth : Shape.f32.width = 32 := rfl
  apply BitVec.eq_of_toNat_eq
  rw [sampleOf, hwidth, BitVec.toNat_ofNat, BitVec.toNat_setWidth, BitVec.extractLsb'_toNat, Nat.shiftRight_zero]

theorem sampleOf_f64 (a : BitVec 64) : sampleOf .f64 a = a := sampleOf_eq_self a.isLt

theorem exec_append_congr {a b : BitVec 64} {s : State} (h : sampleOf s.config.shape a = sampleOf s.config.shape b) :
    exec (.append a) s = exec (.append b) s := by
  simp only [exec, execAppend, h]

/-- Settles O39: APPEND uses the sample alone. -/
theorem appendReadsTheLowBitsOnly : Obligations.AppendReadsTheLowBitsOnly := by
  unfold Obligations.AppendReadsTheLowBitsOnly
  refine ⟨fun a b s hshape hlow => exec_append_congr ?_, fun a => ⟨sampleOf_f32 a, sampleOf_f64 a⟩⟩
  rw [hshape, sampleOf_f32, sampleOf_f32, hlow]

/-- The padding by the length rounded up. -/
theorem pad8_eq (s : Bits) : pad8 s = s ++ List.replicate (8 * ((s.length + 7) / 8) - s.length) false := by
  have hpad : padCount s.length = 8 * ((s.length + 7) / 8) - s.length :=
    Nat.eq_sub_of_add_eq' (add_padCount s.length)
  rw [pad8, hpad]

/-- Settles O43: the aligned chunk, with each padding written out. -/
theorem finalizeAlignsEveryStream : Obligations.FinalizeAlignsEveryStream := by
  unfold Obligations.FinalizeAlignsEveryStream
  intro s hphase
  rw [exec_finalize_of_opened hphase, Chunk.align, pad8_eq, pad8_eq, funext pad8_eq]
  rfl

/-- Settles O45: `bs` is what the chunk holds. -/
theorem serializeEmitsTheStreams : Obligations.SerializeEmitsTheStreams := by
  unfold Obligations.SerializeEmitsTheStreams
  rintro s bs hphase rfl hsink
  exact exec_serialize_of_ok hphase hsink

/-! ## The instructions that do not see the chunk -/

/-- Settles O36: the codec's instructions answer from their operands, and DESERIALIZE from IN and the parameters. -/
theorem chunkIsInvisibleToDecoderAndCodec : Obligations.ChunkIsInvisibleToDecoderAndCodec := by
  unfold Obligations.ChunkIsInvisibleToDecoderAndCodec
  rintro i s t k (rfl | hcodec) h
  · rcases execDeserialize_cases s with ⟨vs, items, hread, hx⟩ | ⟨status, items, hread, hx⟩ <;> cases hx.symm.trans h
    · exact ⟨rfl, exec_deserialize_of_ok (s := { s with chunk := k }) hread⟩
    · exact ⟨rfl, exec_deserialize_of_raised (s := { s with chunk := k }) hread⟩
  · obtain ⟨status, data, len, -, hx⟩ := exec_codec_responds hcodec
    cases (hx s).symm.trans h
    exact ⟨rfl, hx _⟩

/-! ## Steps -/

/-- Settles O6: issuing runs what the command registers decode to. -/
theorem stepRunsDecodedInstruction : Obligations.StepRunsDecodedInstruction := by
  unfold Obligations.StepRunsDecodedInstruction
  intro s rest i hactions hdecode
  rw [step_act hactions]
  exact issueCommand_of_decode hdecode

/-- Settles O7: each action as `act` gives it. -/
theorem hostWritesTouchOneRegister : Obligations.HostWritesTouchOneRegister := by
  unfold Obligations.HostWritesTouchOneRegister
  exact fun s rest =>
    ⟨step_idle, fun _ h => step_act h, fun _ h => step_act h, fun _ h => step_act h, fun _ h => step_act h⟩

theorem step_issue_illegal {s : State} {rest : List HostAction} {e : DecodeError}
    (hactions : s.actions = .issue :: rest) (h : decodeCommand (fetch s) = .error e) :
    step s = .next (respond .illegalCommand 0#64 0#5 { s with actions := rest, out := [] }) := by
  rw [step_act hactions]
  exact issueCommand_of_illegal h

/-- Settles O4: a word is illegal exactly if the decoder rejects it, and then the response alone is written. -/
theorem illegalWordsAreRefused : Obligations.IllegalWordsAreRefused := by
  unfold Obligations.IllegalWordsAreRefused
  intro s rest hactions
  cases h : decodeCommand (fetch s) with
  | ok i => exact ⟨fun hillegal => absurd hillegal (Command.not_illegal_of_decode_ok h), fun _ => ⟨i, rfl⟩⟩
  | error e =>
    refine ⟨fun _ => ⟨_, step_issue_illegal hactions h, ?_⟩,
      fun hlegal => absurd (Command.illegal_of_decode_error h) hlegal⟩
    exact ⟨rfl, rfl, rfl, rfl, rfl, rfl, rfl, rfl, rfl, rfl, rfl, rfl⟩

theorem issueCommand_next (s : State) : ∃ t, issueCommand s = .next t := by
  cases h : decodeCommand (fetch s) with
  | ok i =>
    obtain ⟨t, ht, -⟩ := exec_after i (beginCommand s)
    exact ⟨t, (issueCommand_of_decode h).trans ht⟩
  | error e => exact ⟨_, issueCommand_of_illegal h⟩

/-- A reset during a command abandons what issuing it would have led to (70_reset_and_hazards.md R241). -/
theorem issueThenReset_of_next {s u : State} (moved : Nat) (h : issueCommand s = .next u) :
    issueThenReset moved s = .next (resetEvent (abandon moved s u)) := by
  rw [issueThenReset, h]

theorem act_next (a : HostAction) (s : State) : ∃ t, act a s = .next t := by
  cases a with
  | writeCmd v => exact ⟨_, rfl⟩
  | writeArgA v => exact ⟨_, rfl⟩
  | writeArgB v => exact ⟨_, rfl⟩
  | offer items => exact ⟨_, rfl⟩
  | issue => exact issueCommand_next s
  | reset => exact ⟨_, rfl⟩
  | issueThenReset moved =>
    obtain ⟨u, hu⟩ := issueCommand_next s
    exact ⟨_, issueThenReset_of_next moved hu⟩

/-- Settles O8: every instruction answers a next state, and so does every action of the host. -/
theorem everyStepHasANextState : Obligations.EveryStepHasANextState := by
  unfold Obligations.EveryStepHasANextState
  intro s
  cases h : s.actions with
  | nil => exact ⟨s, step_idle h⟩
  | cons a rest =>
    rw [step_act h]
    exact act_next a _

end Sys2Proof.Machine
end

section
/-! PROOFS. VENC, VDEC and the codeword classes (41_varint_codec.md R140, R145, 30_encoding.md R83 to R91): the window of
a codeword, the windows that hold a codeword, and what VDEC answers for each. -/

namespace Sys2Proof.Machine

/-! ## The window of a codeword -/

theorem windowSum_lt {c : Bits} {k : Nat} (h : k + c.length ≤ 16) : windowSum c k < 2 ^ (16 - k) := by
  induction c generalizing k with
  | nil => exact Nat.two_pow_pos _
  | cons b c ih =>
    have hlen : k + 1 + c.length ≤ 16 := by simp only [List.length_cons] at h; omega
    have hrest := ih hlen
    have hexp : 16 - k = 15 - k + 1 := by omega
    have hexp' : 16 - (k + 1) = 15 - k := by omega
    have hbit : b.toNat * 2 ^ (15 - k) ≤ 1 * 2 ^ (15 - k) := Nat.mul_le_mul_right _ b.toNat_le
    rw [hexp'] at hrest
    rw [windowSum, hexp, pow_succ]
    omega

/-- The bits of the sum, from the first of the codeword on; below the codeword they are 0. -/
theorem windowSum_testBit {c : Bits} {k : Nat} (h : k + c.length ≤ 16) {j : Nat} (hj : k + j < 16) :
    (windowSum c k).testBit (15 - (k + j)) = c.getD j false := by
  induction c generalizing k j with
  | nil => simp [windowSum]
  | cons b c ih =>
    have hlen : k + 1 + c.length ≤ 16 := by simp only [List.length_cons] at h; omega
    have hrest := windowSum_lt hlen
    have hexp : 16 - (k + 1) = 15 - k := by omega
    rw [hexp] at hrest
    rw [windowSum, Nat.mul_comm, Nat.testBit_two_pow_mul_add _ hrest]
    cases j with
    | zero => cases b <;> simp
    | succ j =>
      have hbelow : 15 - (k + (j + 1)) < 15 - k := by omega
      have hstep : k + (j + 1) = k + 1 + j := by omega
      rw [if_pos hbelow, hstep, ih hlen (by omega), List.getD_cons_succ]

theorem windowOf_getLsbD {c : Bits} (h : c.length ≤ 16) {k : Nat} (hk : k < 16) :
    (windowOf c).getLsbD (15 - k) = c.getD k false := by
  have hbit := windowSum_testBit (c := c) (k := 0) (by omega) (j := k) (by omega)
  have hlt : 15 - k < 16 := by omega
  rw [Nat.zero_add] at hbit
  rw [windowOf, BitVec.getLsbD_ofNat, hbit, decide_eq_true hlt, Bool.true_and]

/-- Settles O29: the window is the one whose bits are summed up from the codeword. -/
theorem vencAnswersTheCodeword : Obligations.VencAnswersTheCodeword := by
  unfold Obligations.VencAnswersTheCodeword
  intro v s c h
  have hlen := (vlcEncode_eq_ok_iff.mp h).length_le
  refine ⟨windowOf c, ?_, fun k hk => windowOf_getLsbD hlen hk⟩
  have hint : vlcEncode (int16 v) = .ok c := h
  simp [exec, execVenc, hint, respond, answer, Status.code]

/-! ## Windows that hold a codeword -/

/-- The first bits of the window, first bit at window bit 15, are those of `c` (30_encoding.md R91). -/
def BeginsWith (w : BitVec 16) (c : Bits) : Prop := ∀ k, k < c.length → w.getLsbD (15 - k) = c.getD k false

theorem delivers_of_beginsWith {w : BitVec 16} {c : Bits} {a : Nat} (h : BeginsWith w c) (ha : c.length ≤ a) :
    Delivers (windowRead1 w a) 0 c c.length := by
  have hbits : (List.range c.length).map (fun j => w.getLsbD (15 - (0 + j))) = c := by
    apply List.ext_getElem
    · simp
    · intro k _ hk
      simpa [hk] using h k hk
  have hd := windowRead1_delivers w a c.length 0 (by omega)
  rwa [hbits, Nat.zero_add] at hd

/-- What the window reader delivers are bits of the window that are valid. -/
theorem windowRead1_of_delivers {w : BitVec 16} {a k r : Nat} {c : Bits} (h : Delivers (windowRead1 w a) k c r)
    (hk : k ≤ a) : k + c.length ≤ a ∧ ∀ j, j < c.length → w.getLsbD (15 - (k + j)) = c.getD j false := by
  induction c generalizing k with
  | nil => exact ⟨hk, nofun⟩
  | cons b c ih =>
    obtain ⟨r1, hread, hrest⟩ := h
    rcases Nat.lt_or_ge k a with hvalid | hpast
    · rw [windowRead1_of_lt hvalid] at hread
      cases hread
      obtain ⟨hlen, hbits⟩ := ih hrest hvalid
      refine ⟨by simp only [List.length_cons]; omega, fun j hj => ?_⟩
      cases j with
      | zero => rfl
      | succ j =>
        have hstep : k + (j + 1) = k + 1 + j := by omega
        rw [hstep, hbits j (by simpa using hj), List.getD_cons_succ]
    · rw [windowRead1_of_le hpast] at hread
      cases hread

theorem beginsWith_of_delivers {w : BitVec 16} {a r : Nat} {c : Bits} (h : Delivers (windowRead1 w a) 0 c r) :
    c.length ≤ a ∧ BeginsWith w c := by
  obtain ⟨hlen, hbits⟩ := windowRead1_of_delivers h (Nat.zero_le a)
  simp only [Nat.zero_add] at hlen hbits
  exact ⟨hlen, hbits⟩

/-- No codeword is the front of another (30_encoding.md R92), so a window begins with one codeword at most. -/
theorem CodewordOf.length_eq_of_beginsWith {v v' : Int} {c c' : Bits} {w : BitVec 16} (hc : CodewordOf v c)
    (hc' : CodewordOf v' c') (h : BeginsWith w c) (h' : BeginsWith w c') : c.length = c'.length := by
  have hdecode := hc.vlcDecode_eq (delivers_of_beginsWith h hc.length_le)
  have hdecode' := hc'.vlcDecode_eq (delivers_of_beginsWith h' hc'.length_le)
  exact (ReadResult.ok.inj (hdecode.symm.trans hdecode')).2

/-! ## VDEC -/

/-- VDEC of a window that holds a codeword among its valid bits (R145). -/
theorem exec_vdec_of_beginsWith {v : Int} {c : Bits} {w : BitVec 16} {a : BitVec 5} (hc : CodewordOf v c)
    (h : BeginsWith w c) (hlen : c.length ≤ a.toNat) (ha : a.toNat ≤ 16) (s : State) :
    exec (.vdec w a) s = .next (respond .ok (sext64 v) (BitVec.ofNat 5 c.length) s) := by
  have hdecode := hc.vlcDecode_eq (delivers_of_beginsWith h hlen)
  simp [exec, execVdec, Nat.not_lt.mpr ha, hdecode]

/-- VDEC of a window that holds none (R145, R136). -/
theorem exec_vdec_of_no_codeword {w : BitVec 16} {a : BitVec 5} (ha : a.toNat ≤ 16)
    (h : ∀ v c, CodewordOf v c → BeginsWith w c → a.toNat < c.length) (s : State) :
    exec (.vdec w a) s = .next (respond .corruptStream 0#64 0#5 s) := by
  cases hdecode : vlcDecode (windowRead1 w a.toNat) 0 with
  | ok d r =>
    obtain ⟨c, hc, -, hd⟩ := vlcDecode_delivers hdecode
    obtain ⟨hlen, hbegins⟩ := beginsWith_of_delivers hd
    exact absurd hlen (Nat.not_le.mpr (h d.1 c hc hbegins))
  | raised k r =>
    have hread := vlcDecode_raisesOnly (P := (· = .corruptStream)) rfl (windowRead1_raisesOnly w a.toNat) 0
    obtain rfl := hread.of_raised hdecode
    simp [exec, execVdec, Nat.not_lt.mpr ha, hdecode]

theorem exec_vdec_of_large_avail (w : BitVec 16) {a : BitVec 5} (ha : 16 < a.toNat) (s : State) :
    exec (.vdec w a) s = .next (respond .illegalCommand 0#64 0#5 s) := by
  simp [exec, execVdec, ha]

/-- Extending the 16-bit value keeps the number (R83). -/
theorem sext64_eq_ofInt {v : Int} (h : v.natAbs ≤ 1169) : sext64 v = BitVec.ofInt 64 v := by
  apply BitVec.eq_of_toInt_eq
  have hbmod : v.bmod (2 ^ 16) = v := Int.bmod_eq_of_le (by omega) (by omega)
  have hbmod' : v.bmod (2 ^ 64) = v := Int.bmod_eq_of_le (by omega) (by omega)
  rw [sext64, BitVec.toInt_signExtend_of_le (by decide), BitVec.toInt_ofInt, BitVec.toInt_ofInt, hbmod, hbmod']

theorem CodewordOf.sext64_eq {v : Int} {c : Bits} (h : CodewordOf v c) : sext64 v = BitVec.ofInt 64 v :=
  sext64_eq_ofInt (vlcEncode_ok h.vlcEncode_eq).1

/-- Settles O31: the window reader delivers the codeword, and its value keeps its sign. -/
theorem vdecAnswersTheValue : Obligations.VdecAnswersTheValue := by
  unfold Obligations.VdecAnswersTheValue
  intro v c w a s h hbegins hlen ha
  have hc := vlcEncode_eq_ok_iff.mp h
  rw [exec_vdec_of_beginsWith hc hbegins hlen ha, hc.sext64_eq]
  rfl

/-- Every codeword has a 0 among its first five bits (30_encoding.md R89, R90). -/
theorem CodewordOf.exists_zero {v : Int} {c : Bits} (h : CodewordOf v c) :
    ∃ k, k < 5 ∧ k < c.length ∧ c.getD k false = false := by
  cases h with
  | zero => exact ⟨0, by decide⟩
  | plus1 => exact ⟨0, by decide⟩
  | minus1 => exact ⟨1, by decide⟩
  | band hband neg hoff =>
    cases hband with
    | band4 => exact ⟨2, by decide, by simp, rfl⟩
    | band7 => exact ⟨3, by decide, by simp, rfl⟩
    | band10 => exact ⟨4, by decide, by simp, rfl⟩

theorem not_beginsWith_of_reserved {w : BitVec 16} (hw : w &&& 0xF800 = 0xF800) {v : Int} {c : Bits}
    (hc : CodewordOf v c) : ¬ BeginsWith w c := by
  intro h
  obtain ⟨k, hk, hlen, hzero⟩ := hc.exists_zero
  have hprefix : w.extractLsb' 11 5 = BitVec.allOnes 5 :=
    (and_prefixMask_eq_iff (n := 5) (k := 11) w (BitVec.allOnes 5)).mp hw
  have hbit : (w.extractLsb' 11 5).getLsbD (4 - k) = true := by
    rw [hprefix, BitVec.getLsbD_allOnes]
    exact decide_eq_true (by omega)
  have hback : 11 + (4 - k) = 15 - k := by omega
  rw [BitVec.getLsbD_extractLsb', hback, h k hlen, hzero, Bool.and_false] at hbit
  cases hbit

/-- Settles O32: a window with too few valid bits holds no other codeword, a reserved one holds none. -/
theorem vdecRefusals : Obligations.VdecRefusals := by
  unfold Obligations.VdecRefusals
  refine ⟨fun v c w a s h hbegins hshort => ?_, fun w a s hw ha => ?_, fun w a s ha => exec_vdec_of_large_avail w ha s⟩
  · have hc := vlcEncode_eq_ok_iff.mp h
    have hlen := hc.length_le
    refine exec_vdec_of_no_codeword (by omega) (fun v' c' hc' hbegins' => ?_) s
    rwa [hc'.length_eq_of_beginsWith hc hbegins' hbegins]
  · exact exec_vdec_of_no_codeword ha (fun v c hc h => absurd h (not_beginsWith_of_reserved hw hc)) s

theorem BeginsWith.congr {w w' : BitVec 16} {c : Bits} {a : Nat}
    (h : ∀ k, k < a → w.getLsbD (15 - k) = w'.getLsbD (15 - k)) (hlen : c.length ≤ a) (hw : BeginsWith w c) :
    BeginsWith w' c :=
  fun k hk => (h k (hk.trans_le hlen)).symm.trans (hw k hk)

/-- Settles O33: both windows hold the same codeword among their valid bits, or both none. -/
theorem vdecIgnoresInvalidBits : Obligations.VdecIgnoresInvalidBits := by
  unfold Obligations.VdecIgnoresInvalidBits
  intro w w' a s h
  rcases Nat.lt_or_ge 16 a.toNat with ha | ha
  · rw [exec_vdec_of_large_avail w ha, exec_vdec_of_large_avail w' ha]
  by_cases hholds : ∃ v c, CodewordOf v c ∧ c.length ≤ a.toNat ∧ BeginsWith w c
  · obtain ⟨v, c, hc, hlen, hw⟩ := hholds
    rw [exec_vdec_of_beginsWith hc hw hlen ha, exec_vdec_of_beginsWith hc (hw.congr h hlen) hlen ha]
  · have hnone (v : Int) (c : Bits) (hc : CodewordOf v c) (hw : BeginsWith w c) : a.toNat < c.length :=
      Nat.not_le.mp fun hlen => hholds ⟨v, c, hc, hlen, hw⟩
    have hnone' (v : Int) (c : Bits) (hc : CodewordOf v c) (hw : BeginsWith w' c) : a.toNat < c.length :=
      Nat.not_le.mp fun hlen => hholds ⟨v, c, hc, hlen, hw.congr (fun k hk => (h k hk).symm) hlen⟩
    rw [exec_vdec_of_no_codeword ha hnone, exec_vdec_of_no_codeword ha hnone']

/-! ## The codeword classes -/

/-- A prefix of a window, by the slice that the decoder of windows compares (R91). -/
theorem beginsWith_of_prefix {w : BitVec 16} {p : Nat} {value : BitVec p} {pre : Bits} (hp : p ≤ 16)
    (h : w.extractLsb' (16 - p) p = value) (hlen : pre.length = p)
    (hpre : ∀ k < p, value.getLsbD (p - 1 - k) = pre.getD k false) : BeginsWith w pre := by
  intro k hk
  rw [hlen] at hk
  have hlt : p - 1 - k < p := by omega
  have hback : 16 - p + (p - 1 - k) = 15 - k := by omega
  rw [← hpre k hk, ← h, BitVec.getLsbD_extractLsb', hback, decide_eq_true hlt, Bool.true_and]

/-- After the prefix of a band the window holds the codeword of its sign bit and offset field (R87, R91). -/
theorem beginsWith_band {w : BitVec 16} {pre : Bits} (n k : Nat) (hsize : pre.length + 1 + n + k = 16)
    (h : BeginsWith w pre) :
    BeginsWith w (pre ++ w.getLsbD (k + n) :: bitsN n (w.extractLsb' k n).toNat) := by
  intro j hj
  simp only [List.length_append, List.length_cons, bitsN_length] at hj
  rcases Nat.lt_trichotomy j pre.length with hlt | heq | hgt
  · rw [List.getD_append _ _ _ _ hlt]
    exact h j hlt
  · have hback : 15 - j = k + n := by omega
    simp [heq, ← hback]
  · obtain ⟨i, rfl⟩ := Nat.exists_eq_add_of_lt hgt
    have hi : i < (bitsN n (w.extractLsb' k n).toNat).length := by rw [bitsN_length]; omega
    have hfield : n - 1 - i < n := by omega
    have hback : k + (n - 1 - i) = 15 - (pre.length + i + 1) := by omega
    have hskip : pre.length + i + 1 - pre.length = i + 1 := by omega
    rw [List.getD_append_right _ _ _ _ hgt.le, hskip, List.getD_cons_succ, List.getD_eq_getElem _ _ hi, bitsN_getElem,
      BitVec.testBit_toNat, BitVec.getLsbD_extractLsb', hback, decide_eq_true hfield, Bool.true_and]

/-- VDEC of a whole window that begins with a band's prefix (R91). -/
theorem exec_vdec_16_of_band {w : BitVec 16} {n base : Nat} {pre : Bits} (hband : IsBand n base pre) (k : Nat)
    (hsize : pre.length + 1 + n + k = 16) (h : BeginsWith w pre) (s : State) :
    exec (.vdec w 16#5) s = .next (respond .ok
      (sext64 (bandValue base (w.getLsbD (k + n)) (w.extractLsb' k n).toNat))
      (BitVec.ofNat 5 (pre.length + 1 + n)) s) := by
  have hc := CodewordOf.band hband (w.getLsbD (k + n)) (w.extractLsb' k n).isLt
  rw [exec_vdec_of_beginsWith (a := 16#5) hc (beginsWith_band n k hsize h) hc.length_le le_rfl]
  simp [Nat.add_assoc, Nat.add_comm 1]

/-- A slice of the first five bits of a window. -/
theorem extractLsb'_extractLsb'_prefix (w : BitVec 16) (i n : Nat) (h : i + n ≤ 5) :
    (w.extractLsb' 11 5).extractLsb' i n = w.extractLsb' (11 + i) n := by
  apply BitVec.eq_of_getLsbD_eq
  intro j hj
  have hlt : i + j < 5 := by omega
  simp [hj, hlt, Nat.add_assoc]

/-- Five bits match a class, of which the reserved prefix is the last (R85). -/
theorem prefix_cases :
    ∀ p : BitVec 5, p.extractLsb' 3 2 = 0b00#2 ∨ p.extractLsb' 3 2 = 0b01#2 ∨ p.extractLsb' 3 2 = 0b10#2 ∨
      p.extractLsb' 2 3 = 0b110#3 ∨ p.extractLsb' 1 4 = 0b1110#4 ∨ p = 0b11110#5 ∨ p = 0b11111#5 := by
  decide

theorem exec_vdec_16_of_reserved {w : BitVec 16} (h : w.extractLsb' 11 5 = 0b11111#5) (s : State) :
    exec (.vdec w 16#5) s = exec .reserved s := by
  have hw : w &&& 0xF800 = 0xF800 := (and_prefixMask_eq_iff (n := 5) (k := 11) w 0b11111#5).mpr h
  exact exec_vdec_of_no_codeword le_rfl (fun _ _ hc hbegins => absurd hbegins (not_beginsWith_of_reserved hw hc)) s

/-- Each class is VDEC's answer for the codeword that the window begins with. -/
theorem exec_vdec_16 (w : BitVec 16) (s : State) : exec (.vdec w 16#5) s = exec (decodeWindow w) s := by
  unfold decodeWindow
  split
  next h =>
    exact exec_vdec_of_beginsWith .zero (beginsWith_of_prefix (by decide) h rfl (by decide)) (by decide) le_rfl s
  split
  next h =>
    exact exec_vdec_of_beginsWith .plus1 (beginsWith_of_prefix (by decide) h rfl (by decide)) (by decide) le_rfl s
  split
  next h =>
    exact exec_vdec_of_beginsWith .minus1 (beginsWith_of_prefix (by decide) h rfl (by decide)) (by decide) le_rfl s
  split
  next h => exact exec_vdec_16_of_band .band4 8 rfl (beginsWith_of_prefix (by decide) h rfl (by decide)) s
  split
  next h => exact exec_vdec_16_of_band .band7 4 rfl (beginsWith_of_prefix (by decide) h rfl (by decide)) s
  split
  next h => exact exec_vdec_16_of_band .band10 0 rfl (beginsWith_of_prefix (by decide) h rfl (by decide)) s
  next hzero hplus1 hminus1 hband4 hband7 hband10 =>
    have hslice := extractLsb'_extractLsb'_prefix w
    rw [← hslice 3 2 (by decide)] at hzero hplus1 hminus1
    rw [← hslice 2 3 (by decide)] at hband4
    rw [← hslice 1 4 (by decide)] at hband7
    have hcases := prefix_cases (w.extractLsb' 11 5)
    simp only [hzero, hplus1, hminus1, hband4, hband7, hband10, false_or] at hcases
    exact exec_vdec_16_of_reserved hcases s

/-- Settles O35: a laid window is a VDEC of it with 16 valid bits, by the round trip of the command encoding. -/
theorem vdecRunsTheCodewordClass : Obligations.VdecRunsTheCodewordClass := by
  unfold Obligations.VdecRunsTheCodewordClass
  refine ⟨exec_vdec_16, fun s w => ?_⟩
  rw [← exec_vdec_16]
  have hdecode := decodeEncodeRoundTrip (.vdec (BitVec.ofNat 16 w) 16#5) rfl
  exact stepRunsDecodedInstruction (s.withFetchWord 16 w) s.actions _ rfl hdecode

theorem sext64_bandValue {base off : Nat} (h : base + off ≤ 1169) (neg : Bool) :
    sext64 (bandValue base neg off) =
      if neg then -(BitVec.ofNat 64 base + BitVec.ofNat 64 off) else BitVec.ofNat 64 base + BitVec.ofNat 64 off := by
  rw [sext64_eq_ofInt (by simpa using h), ← BitVec.ofNat_add]
  cases neg with
  | false => exact BitVec.ofInt_natCast ..
  | true => exact BitVec.ofInt_neg.trans (congrArg Neg.neg (BitVec.ofInt_natCast ..))

/-- A band codeword answers its magnitude, or the negative of it (R88). -/
theorem respondValue_bandValue {base n : Nat} (o : BitVec n) (neg : Bool) (len : Nat) (s : State)
    (h : base + o.toNat ≤ 1169) :
    respondValue (bandValue base neg o.toNat) len s =
      { s with
        rsp := answer 0
          (if neg then -(BitVec.ofNat 64 base + o.setWidth 64) else BitVec.ofNat 64 base + o.setWidth 64)
          (BitVec.ofNat 5 len) s.chunk } := by
  rw [respondValue, sext64_bandValue h, BitVec.ofNat_toNat]
  rfl

/-- Settles O34: the fixed values, and base plus offset of each band. -/
theorem codewordClassAnswers : Obligations.CodewordClassAnswers := by
  unfold Obligations.CodewordClassAnswers
  intro s
  refine ⟨rfl, rfl, rfl, fun o => ?_, fun o => ?_, fun o => ?_, rfl⟩
  · have h (neg : Bool) := respondValue_bandValue (base := 2) o neg 8 s (by omega)
    exact ⟨congrArg _ (h false), congrArg _ (h true)⟩
  · have h (neg : Bool) := respondValue_bandValue (base := 18) o neg 12 s (by omega)
    exact ⟨congrArg _ (h false), congrArg _ (h true)⟩
  · have h (neg : Bool) := respondValue_bandValue (base := 146) o neg 16 s (by omega)
    exact ⟨congrArg _ (h false), congrArg _ (h true)⟩

end Sys2Proof.Machine
end

section
/-! PROOFS. Where the fields lie in a sample, as slices and by masks, and `from_parts` as a concatenation of the fields
(40_float_fields.md R110 to R114). -/

namespace Sys2Proof.Machine

/-! ## from_parts as a concatenation -/

/-- The concatenation of the fields, each cut to its width. -/
abbrev joinParts (sh : Shape) (s : Bool) (e m : Nat) : BitVec (1 + sh.expBits + sh.mantBits) :=
  BitVec.ofBool s ++ BitVec.ofNat sh.expBits e ++ BitVec.ofNat sh.mantBits m

theorem fromParts_eq_joinParts (sh : Shape) (s : Bool) (e m : Nat) :
    fromParts sh s e m = (joinParts sh s e m).setWidth 64 := by
  rw [← BitVec.ofNat_toNat, joinParts, BitVec.toNat_append, BitVec.toNat_append, BitVec.toNat_ofBool,
    BitVec.toNat_ofNat, BitVec.toNat_ofNat, Nat.shiftLeft_or_distrib, ← Nat.shiftLeft_add, Nat.add_comm sh.expBits,
    ← width_sub_one, fromParts]

/-- A reassembled sample is a W-bit pattern (log 12). -/
theorem fromParts_lt (sh : Shape) (s : Bool) (e m : Nat) : (fromParts sh s e m).toNat < 2 ^ sh.width := by
  rw [fromParts_eq_joinParts, BitVec.toNat_setWidth]
  exact (Nat.mod_le _ _).trans_lt (joinParts sh s e m).isLt

theorem fromParts_f32 (s : Bool) (e m : Nat) : fromParts .f32 s e m = 0#32 ++ joinParts .f32 s e m := by
  have hzeros (x : BitVec 32) : x.setWidth 64 = 0#32 ++ x := by
    apply BitVec.eq_of_toNat_eq
    rw [BitVec.toNat_setWidth_of_le (by decide), BitVec.toNat_append]
    simp
  exact (fromParts_eq_joinParts .f32 s e m).trans (hzeros _)

theorem fromParts_f64 (s : Bool) (e m : Nat) : fromParts .f64 s e m = joinParts .f64 s e m :=
  (fromParts_eq_joinParts .f64 s e m).trans (BitVec.setWidth_eq _)

/-! ## Slices and masks -/

/-- A mask of `n` ones from bit `i` on, then a shift down: the slice of those bits. -/
theorem and_mask_shift {w : Nat} (v : BitVec w) (i n : Nat) :
    (v &&& ((BitVec.allOnes n).setWidth w <<< i)) >>> i = (v.extractLsb' i n).setWidth w := by
  apply BitVec.eq_of_getLsbD_eq
  intro j hj
  rcases Nat.lt_or_ge (i + j) w with hin | hout
  · have hge : ¬ i + j < i := by omega
    simp [hj, hge, hin, Bool.and_comm]
  · simp [BitVec.getLsbD_of_ge v _ hout]

theorem getLsbD_iff_and_twoPow_ne_zero {w : Nat} (v : BitVec w) {i : Nat} (hne : BitVec.twoPow w i ≠ 0#w) :
    v.getLsbD i = true ↔ v &&& BitVec.twoPow w i ≠ 0#w := by
  rw [BitVec.and_twoPow]
  cases v.getLsbD i <;> simp [hne]

/-- The exponent by its mask. -/
theorem getExp_eq_mask {sh : Shape} {v mask : BitVec 64}
    (hmask : (BitVec.allOnes sh.expBits).setWidth 64 <<< sh.mantBits = mask) :
    getExp sh v = ((v &&& mask) >>> sh.mantBits).toNat := by
  have hsize : sh.expBits ≤ 64 := by cases sh <;> decide
  rw [← hmask, and_mask_shift, BitVec.toNat_setWidth_of_le hsize]
  rfl

/-- The mantissa by its mask. -/
theorem getMantissa_eq_mask {sh : Shape} {v mask : BitVec 64}
    (hmask : (BitVec.allOnes sh.mantBits).setWidth 64 = mask) :
    getMantissa sh v = (v &&& mask).toNat := by
  have hsize : sh.mantBits ≤ 64 := by cases sh <;> decide
  rw [← hmask, ← setWidth_extractLsb'_eq_and, BitVec.toNat_setWidth_of_le hsize]
  rfl

/-- Settles O59: the fields are slices by definition, and the table's masks are the ones of each slice. -/
theorem fieldPositions : Obligations.FieldPositions := by
  unfold Obligations.FieldPositions
  refine ⟨fun v => ⟨rfl, rfl, rfl, rfl, rfl, rfl⟩, fun v => ⟨?_, ?_, ?_, ?_, ?_, ?_⟩, fun s e m =>
    ⟨fromParts_f32 s e m, fromParts_f64 s e m⟩⟩
  · exact getLsbD_iff_and_twoPow_ne_zero v (by decide)
  · exact getExp_eq_mask (sh := .f32) rfl
  · exact getMantissa_eq_mask (sh := .f32) rfl
  · exact getLsbD_iff_and_twoPow_ne_zero v (by decide)
  · exact getExp_eq_mask (sh := .f64) rfl
  · exact getMantissa_eq_mask (sh := .f64) rfl

end Sys2Proof.Machine
end

section
/-! PROOFS. The samples of a container in closed form (43_chunk_decoder.md R193, R194, R197, R201), and a reserved prefix
in its exponent stream (41_varint_codec.md R136). -/

namespace Sys2Proof.Machine

/-! ## The samples in closed form -/

/-- A sign is the parity of the bits up to it (R193). -/
theorem signsOf_getD (prev : Bool) {bs : Bits} {k : Nat} (h : k < bs.length) :
    (signsOf prev bs).getD k false = (bs.take (k + 1)).foldl xor prev := by
  induction bs generalizing prev k with
  | nil => cases h
  | cons b bs ih =>
    cases k with
    | zero => rfl
    | succ k => exact ih (prev ^^ b) (Nat.lt_of_succ_lt_succ h)

theorem natCast_expAdv (sh : Shape) (prev : Nat) (d : Int) :
    (expAdv sh prev d : Int) = ((prev : Int) + d) % 2 ^ sh.expBits :=
  Int.toNat_of_nonneg (Int.emod_nonneg _ (pow_ne_zero _ two_ne_zero))

/-- An exponent is the sum of the deltas up to it, modulo `2^E` (R194). -/
theorem expsOf_getD (sh : Shape) (prev : Nat) {ds : List Int} {k : Nat} (h : k < ds.length) :
    (expsOf sh prev ds).getD k 0 = (((prev : Int) + (ds.take (k + 1)).sum) % 2 ^ sh.expBits).toNat := by
  induction ds generalizing prev k with
  | nil => cases h
  | cons d ds ih =>
    cases k with
    | zero => simp [expsOf, expAdv]
    | succ k =>
      have hrest := ih (expAdv sh prev d) (Nat.lt_of_succ_lt_succ h)
      rw [natCast_expAdv, Int.emod_add_emod, add_assoc] at hrest
      rw [expsOf, List.getD_cons_succ, hrest, List.take_succ_cons, List.sum_cons]

/-- A mantissa is the sum of its bits (R197), here for planes that are numbered from `j` on. -/
theorem mantissaAt_eq_sum (k : Nat) (odd : Bool) (ps : List Bits) (j : Nat) :
    ((ps.zipIdx j).map fun x => (x.1.getD k false ^^ odd).toNat * 2 ^ x.2).sum = mantissaAt k odd ps * 2 ^ j := by
  induction ps generalizing j with
  | nil => simp [mantissaAt]
  | cons p ps ih =>
    rw [List.zipIdx_cons, List.map_cons, List.sum_cons, ih, mantissaAt, pow_succ]
    ring

theorem Layout.sample_eq (sh : Shape) (L : Layout) (k : Nat) :
    L.sample sh k =
      fromParts sh ((L.sb.take (k + 1)).foldl xor false) ((L.ds.take (k + 1)).sum % 2 ^ sh.expBits).toNat
        (mantissaAt k (((L.ds.take (k + 1)).sum % 2 ^ sh.expBits).toNat.testBit 0) L.pbs) := by
  have hmant := mantissaAt_eq_sum k (((L.ds.take (k + 1)).sum % 2 ^ sh.expBits).toNat.testBit 0) L.pbs 0
  rw [pow_zero, mul_one] at hmant
  rw [← hmant]
  rfl

/-- What the decoder reassembles are the samples of the layout (R190, R201). -/
theorem reassemble_eq_samples {sh : Shape} {L : Layout} (hfits : L.Fits sh) :
    reassemble sh L.n (signsOf false (L.sb.take L.n)) (expsOf sh 0 L.ds) L.pbs = L.samples sh := by
  have hsb : L.n ≤ L.sb.length := by
    rw [hfits.sb, ← add_padCount]
    exact Nat.le_add_right _ _
  apply List.map_congr_left
  intro k hk
  have hlt : k < L.n := List.mem_range.mp hk
  have hsign := signsOf_getD false (bs := L.sb.take L.n) (k := k) (by rw [List.length_take_of_le hsb]; exact hlt)
  have hexp := expsOf_getD sh 0 (ds := L.ds) (k := k) (by rw [hfits.ds]; exact hlt)
  rw [List.take_take, Nat.min_eq_left hlt] at hsign
  rw [Nat.cast_zero, zero_add] at hexp
  rw [Layout.sample_eq, hsign, hexp]

theorem decodeContainer_eq_samples {cfg : Config} {L : Layout} (hfits : L.Fits cfg.shape)
    (hlimit : L.n ≤ cfg.maxSamples.toNat) (rest : List InItem) :
    decodeContainer cfg (itemsOf L.bytes ++ rest) = .ok (L.samples cfg.shape) rest := by
  rw [decodeContainer_layout hfits hlimit, reassemble_eq_samples hfits]

theorem Layout.samples_length (sh : Shape) (L : Layout) : (L.samples sh).length = L.n := by
  simp [Layout.samples]

/-- Settles O49: the container is decoded to its samples, which are `L.n` many. -/
theorem deserializeDecodesEveryLayout : Obligations.DeserializeDecodesEveryLayout := by
  unfold Obligations.DeserializeDecodesEveryLayout
  intro s L rest hfits hlimit hinput
  have hread : decodeContainer s.config s.input = .ok (L.samples s.config.shape) rest :=
    hinput ▸ decodeContainer_eq_samples hfits hlimit rest
  rw [exec_deserialize_of_ok hread, Layout.samples_length]
  rfl

/-! ## A reserved prefix -/

/-- After fewer codewords than are wanted the reserved prefix ends the loop, wherever the reader then stands (R194,
R136). -/
theorem expLoop_of_reservedPrefix (sh : Shape) {n : Nat} (prev : Nat) {ds : List Int} (hn : ds.length < n)
    (hds : ∀ d ∈ ds, InVlcRange d) {r r' : BitReader}
    (h : Delivers BitReader.read1 r (codewords ds ++ [true, true, true, true, true]) r') :
    expLoop sh n prev r = .raised .corruptStream r' := by
  induction ds generalizing n prev r with
  | nil =>
    obtain ⟨n, rfl⟩ := Nat.exists_eq_add_of_lt hn
    simp [expLoop, vlcDecode_of_reservedPrefix h]
  | cons d ds ih =>
    obtain ⟨hd, hds⟩ := List.forall_mem_cons.mp hds
    rw [codewords_cons, List.append_assoc] at h
    obtain ⟨r1, hfirst, hrest⟩ := delivers_append.mp h
    obtain ⟨m, rfl⟩ : ∃ m, n = m + 1 := ⟨n - 1, by omega⟩
    have hdecode := (codewordOf_codeword hd).vlcDecode_eq hfirst
    simp [expLoop, hdecode, ih _ (Nat.lt_of_succ_lt_succ hn) hds hrest]

/-- The last byte taken is the one that holds the fifth bit: fewer than 8 bits of it are left (R194). -/
theorem decodeExps_of_reservedPrefix (sh : Shape) {n : Nat} {ds : List Int} {tail : Bits} (hn : ds.length < n)
    (hds : ∀ d ∈ ds, InVlcRange d) (htail : tail.length < 8)
    (hlen : (codewords ds ++ [true, true, true, true, true] ++ tail).length % 8 = 0) (rest : List InItem) :
    decodeExps sh n (itemsOf (pack (codewords ds ++ [true, true, true, true, true] ++ tail)) ++ rest) =
      .raised .corruptStream rest := by
  have hbits := bitReader_delivers (pack (codewords ds ++ [true, true, true, true, true] ++ tail)) rest
  rw [unpack_pack hlen] at hbits
  obtain ⟨r, hread, hleft⟩ := delivers_append.mp hbits
  obtain rfl := eq_of_delivers_short hleft htail
  rw [decodeExps, itemsOf, expLoop_of_reservedPrefix sh 0 hn hds hread]

/-- Settles O53: the count and the signs are read, and then the exponent stream ends at the prefix. -/
theorem reservedPrefixInExponentStream : Obligations.ReservedPrefixInExponentStream := by
  unfold Obligations.ReservedPrefixInExponentStream
  intro s n sb ds tail rest hlt hlimit hsb hn hds htail hlen hinput
  have hbytes : (codewords ds ++ [true, true, true, true, true] ++ tail).length % 8 = 0 := by
    rw [List.length_append, List.length_append]
    exact hlen
  have hexps := decodeExps_of_reservedPrefix s.config.shape hn hds htail hbytes rest
  have hread : decodeContainer s.config s.input = .raised .corruptStream rest := by
    simp only [hinput, decodeContainer, itemsOf_append, List.append_assoc, ok_andThen, readCount_be32 hlimit hlt,
      decodeSigns_pack (n := n) hsb]
    simp only [List.append_assoc] at hexps
    rw [hexps, raised_andThen]
  rw [exec_deserialize_of_raised hread]
  rfl

end Sys2Proof.Machine
end

section
/-! PROOFS. DESERIALIZE as a sequence of `next_byte` calls (43_chunk_decoder.md R191, R196): what such a sequence takes
from IN, and what it does on an input cut short. -/

namespace Sys2Proof.Machine

theorem andThen_assoc {σ α β γ : Type} (x : ReadResult σ α) (f : α → σ → ReadResult σ β) (g : β → σ → ReadResult σ γ) :
    (x.andThen f).andThen g = x.andThen fun a r => (f a r).andThen g := by
  cases x <;> rfl

/-! ## Sequences of next_byte calls -/

/-- The reading takes bytes one after another with `next_byte` and decides by them alone when to stop. It leaves
IO_FAILURE to `next_byte`. -/
inductive ByteReader {α : Type} : (List InItem → ReadResult (List InItem) α) → Prop where
  | done (a : α) : ByteReader (fun items => .ok a items)
  | stop (k : Status) (hk : k ≠ .ioFailure) : ByteReader (fun items => .raised k items)
  | next {f : Byte → List InItem → ReadResult (List InItem) α} (hf : ∀ b, ByteReader (f b)) :
      ByteReader (fun items => (nextByte items).andThen f)

section
variable {α β : Type} {f : List InItem → ReadResult (List InItem) α}

theorem ByteReader.andThen {g : α → List InItem → ReadResult (List InItem) β} (hf : ByteReader f)
    (hg : ∀ a, ByteReader (g a)) : ByteReader (fun items => (f items).andThen g) := by
  induction hf with
  | done a => exact hg a
  | stop k hk => exact .stop k hk
  | next _ ih =>
    simp only [andThen_assoc]
    exact .next ih

theorem ByteReader.map (hf : ByteReader f) (g : α → β) :
    ByteReader (fun items => (f items).andThen fun a r => .ok (g a) r) :=
  hf.andThen fun a => .done (g a)

/-- What a successful reading takes are bytes, and what follows them does not matter. -/
theorem ByteReader.of_ok (hf : ByteReader f) {items rest : List InItem} {a : α} (h : f items = .ok a rest) :
    ∃ bs, items = itemsOf bs ++ rest ∧ ∀ rest', f (itemsOf bs ++ rest') = .ok a rest' := by
  induction hf generalizing items with
  | done a => cases h; exact ⟨[], rfl, fun _ => rfl⟩
  | stop k hk => cases h
  | next _ ih =>
    obtain ⟨b, r, hb, hrest⟩ := andThen_eq_ok.mp h
    obtain rfl := nextByte_ok.mp hb
    obtain ⟨bs, rfl, hsame⟩ := ih b hrest
    exact ⟨b :: bs, rfl, hsame⟩

/-- A reading that fails has taken bytes and stopped by itself; or it has taken all of an input of bytes; or it has
taken bytes and then a failing item. Where the input did not end early, what follows does not matter. -/
theorem ByteReader.of_raised (hf : ByteReader f) {items rest : List InItem} {k : Status}
    (h : f items = .raised k rest) :
    (∃ bs, items = itemsOf bs ++ rest ∧ k ≠ .ioFailure ∧ ∀ rest', f (itemsOf bs ++ rest') = .raised k rest') ∨
    (∃ bs, items = itemsOf bs ∧ k = .corruptStream ∧ rest = []) ∨
    (∃ bs, items = itemsOf bs ++ .fail :: rest ∧ k = .ioFailure ∧
      ∀ rest', f (itemsOf bs ++ .fail :: rest') = .raised k rest') := by
  induction hf generalizing items with
  | done a => cases h
  | stop k hk => cases h; exact .inl ⟨[], rfl, hk, fun _ => rfl⟩
  | next _ ih =>
    rcases andThen_eq_raised.mp h with hbyte | ⟨b, r, hb, hrest⟩
    · rcases nextByte_raised.mp hbyte with ⟨rfl, rfl, rfl⟩ | ⟨rfl, rfl⟩
      · exact .inr (.inl ⟨[], rfl, rfl, rfl⟩)
      · exact .inr (.inr ⟨[], rfl, rfl, fun _ => rfl⟩)
    · obtain rfl := nextByte_ok.mp hb
      rcases ih b hrest with ⟨bs, rfl, hk, hsame⟩ | ⟨bs, rfl, hk, hend⟩ | ⟨bs, rfl, hk, hsame⟩
      · exact .inl ⟨b :: bs, rfl, hk, hsame⟩
      · exact .inr (.inl ⟨b :: bs, rfl, hk, hend⟩)
      · exact .inr (.inr ⟨b :: bs, rfl, hk, hsame⟩)

/-- A reading that takes all of `bs` fails on every proper front part of it (R191). -/
theorem ByteReader.of_truncated (hf : ByteReader f) {bs : List Byte} {a : α} (h : f (itemsOf bs) = .ok a []) {j : Nat}
    (hj : j < bs.length) :
    f (itemsOf (bs.take j)) = .raised .corruptStream [] ∧
      ∀ rest, f (itemsOf (bs.take j) ++ .fail :: rest) = .raised .ioFailure rest := by
  induction hf generalizing bs j with
  | done a =>
    obtain ⟨-, hnil⟩ := ReadResult.ok.inj h
    rw [List.map_eq_nil_iff.mp hnil] at hj
    cases hj
  | stop k hk => cases h
  | next _ ih =>
    cases bs with
    | nil => cases hj
    | cons b bs =>
      cases j with
      | zero => exact ⟨rfl, fun _ => rfl⟩
      | succ j => exact ih b h (Nat.lt_of_succ_lt_succ hj)

end

/-! ## The parts of DESERIALIZE as such sequences -/

theorem nextByte_byteReader : ByteReader nextByte := by
  have h : nextByte = fun items => (nextByte items).andThen .ok := by
    funext items
    cases nextByte items <;> rfl
  rw [h]
  exact .next fun b => .done b

theorem takeBytes_byteReader (n : Nat) : ByteReader (takeBytes n) := by
  induction n with
  | zero => exact .done []
  | succ n ih => exact .next fun b => ih.map (b :: ·)

theorem readCount_byteReader (limit : Nat) : ByteReader (readCount limit) := by
  refine .next fun c0 => .next fun c1 => .next fun c2 => .next fun c3 => ?_
  by_cases h : countOfBytes c0 c1 c2 c3 > limit
  · simp only [h, if_true]
    exact .stop _ (by decide)
  · simp only [h, if_false]
    exact .done _

theorem decodeSigns_byteReader (n : Nat) : ByteReader (decodeSigns n) :=
  (takeBytes_byteReader (ceilDiv8 n)).map fun bytes => signsOf false ((unpack bytes).take n)

theorem takePlanes_byteReader (m S : Nat) : ByteReader (takePlanes m S) := by
  induction m with
  | zero => exact .done []
  | succ m ih => exact (takeBytes_byteReader S).andThen fun bytes => ih.map (unpack bytes :: ·)

/-! ### The bit reader -/

/-- A reading with the bit reader as one of items, the unread bits made part of what it takes and gives. -/
def onItems {α : Type} (g : BitReader → ReadResult BitReader α) (unread : Bits) (items : List InItem) :
    ReadResult (List InItem) (α × Bits) :=
  match g ⟨unread, items⟩ with
  | .ok a r => .ok (a, r.unread) r.items
  | .raised k r => .raised k r.items

/-- Whatever bits are unread, the reading takes its items as a sequence of `next_byte` calls. -/
def BitwiseReader {α : Type} (g : BitReader → ReadResult BitReader α) : Prop := ∀ unread, ByteReader (onItems g unread)

section
variable {α β : Type} {g : BitReader → ReadResult BitReader α}

theorem bitwiseReader_ok (a : α) : BitwiseReader (fun r => .ok a r) := fun unread => .done (a, unread)

theorem bitwiseReader_raised {k : Status} (hk : k ≠ .ioFailure) :
    BitwiseReader (fun r => (.raised k r : ReadResult BitReader α)) := fun _ => .stop k hk

theorem BitwiseReader.andThen {h : α → BitReader → ReadResult BitReader β} (hg : BitwiseReader g)
    (hh : ∀ a, BitwiseReader (h a)) : BitwiseReader (fun r => (g r).andThen h) := by
  intro unread
  have heq : onItems (fun r => (g r).andThen h) unread =
      fun items => (onItems g unread items).andThen fun p items => onItems (h p.1) p.2 items := by
    funext items
    simp only [onItems]
    cases g ⟨unread, items⟩ <;> rfl
  rw [heq]
  exact (hg unread).andThen fun p => hh p.1 p.2

theorem read1_bitwiseReader : BitwiseReader BitReader.read1 := by
  intro unread
  cases unread with
  | cons b bs => exact .done (b, bs)
  | nil =>
    have heq : onItems BitReader.read1 [] =
        fun items => (nextByte items).andThen fun byte items => .ok (byte.getLsbD 7, (unpackByte byte).tail) items := by
      funext items
      rcases items with _ | ⟨_ | _, items⟩ <;> rfl
    rw [heq]
    exact .next fun byte => .done _

theorem readOffset_bitwiseReader (n off : Nat) : BitwiseReader (readOffset BitReader.read1 n off) := by
  induction n generalizing off with
  | zero => exact bitwiseReader_ok off
  | succ n ih => exact read1_bitwiseReader.andThen fun b => ih _

theorem readBand_bitwiseReader (n base plen : Nat) : BitwiseReader (readBand BitReader.read1 n base plen) :=
  read1_bitwiseReader.andThen fun _ => (readOffset_bitwiseReader n 0).andThen fun _ => bitwiseReader_ok _

theorem vlcDecode_bitwiseReader : BitwiseReader (vlcDecode BitReader.read1) := by
  refine read1_bitwiseReader.andThen fun b0 => read1_bitwiseReader.andThen fun b1 => ?_
  match b0, b1 with
  | false, false => exact bitwiseReader_ok _
  | false, true => exact bitwiseReader_ok _
  | true, false => exact bitwiseReader_ok _
  | true, true =>
    refine read1_bitwiseReader.andThen fun b2 => ?_
    cases b2 with
    | false => exact readBand_bitwiseReader 4 2 3
    | true =>
      refine read1_bitwiseReader.andThen fun b3 => ?_
      cases b3 with
      | false => exact readBand_bitwiseReader 7 18 4
      | true =>
        refine read1_bitwiseReader.andThen fun b4 => ?_
        cases b4 with
        | false => exact readBand_bitwiseReader 10 146 5
        | true => exact bitwiseReader_raised (by decide)

theorem expLoop_bitwiseReader (sh : Shape) (n prev : Nat) : BitwiseReader (expLoop sh n prev) := by
  induction n generalizing prev with
  | zero => exact bitwiseReader_ok []
  | succ n ih => exact vlcDecode_bitwiseReader.andThen fun d => (ih _).andThen fun es => bitwiseReader_ok _

end

theorem decodeExps_byteReader (sh : Shape) (n : Nat) : ByteReader (decodeExps sh n) := by
  have heq : decodeExps sh n =
      fun items => (onItems (expLoop sh n 0) [] items).andThen fun p items => .ok p.1 items := by
    funext items
    unfold decodeExps onItems
    cases expLoop sh n 0 ⟨[], items⟩ <;> rfl
  rw [heq]
  exact (expLoop_bitwiseReader sh n 0 []).map Prod.fst

/-- DESERIALIZE takes its items by `next_byte` calls alone (R191). -/
theorem decodeContainer_byteReader (cfg : Config) : ByteReader (decodeContainer cfg) :=
  (readCount_byteReader cfg.maxSamples.toNat).andThen fun n => (decodeSigns_byteReader n).andThen fun _ =>
    (decodeExps_byteReader cfg.shape n).andThen fun _ =>
      (takePlanes_byteReader cfg.shape.mantBits (ceilDiv8 n)).map _

/-- Settles O51: a whole container is read to its end, so every proper front part of it is cut short. -/
theorem truncatedContainerIsCorrupt : Obligations.TruncatedContainerIsCorrupt := by
  unfold Obligations.TruncatedContainerIsCorrupt
  intro s L k hfits hlimit hk
  have hwhole := decodeContainer_eq_samples hfits hlimit []
  rw [List.append_nil] at hwhole
  obtain ⟨hend, hfail⟩ := (decodeContainer_byteReader s.config).of_truncated hwhole hk
  exact ⟨fun hinput => exec_deserialize_of_raised (hinput ▸ hend),
    fun rest hinput => exec_deserialize_of_raised (hinput ▸ hfail rest)⟩

end Sys2Proof.Machine
end

section
/-! PROOFS. The container that a successful DESERIALIZE has read, and what DESERIALIZE takes from IN in each of its
outcomes (43_chunk_decoder.md R192 to R197). -/

namespace Sys2Proof.Machine

/-! ## The parts of a container that was read -/

/-- The bytes of the count field are those of the count (20_memory.md R54). -/
theorem be32_countOfBytes (c0 c1 c2 c3 : Byte) :
    be32 (BitVec.ofNat 32 (countOfBytes c0 c1 c2 c3)) = [c0, c1, c2, c3] := by
  have hslice (i : Nat) {b : Byte} (h : countOfBytes c0 c1 c2 c3 / 2 ^ i % 2 ^ 8 = b.toNat) :
      (BitVec.ofNat 32 (countOfBytes c0 c1 c2 c3)).extractLsb' i 8 = b := by
    apply BitVec.eq_of_toNat_eq
    rw [BitVec.extractLsb'_toNat, BitVec.toNat_ofNat, Nat.mod_eq_of_lt (countOfBytes_lt c0 c1 c2 c3),
      Nat.shiftRight_eq_div_pow, h]
  have h0 : countOfBytes c0 c1 c2 c3 / 2 ^ 24 % 2 ^ 8 = c0.toNat := by unfold countOfBytes; omega
  have h1 : countOfBytes c0 c1 c2 c3 / 2 ^ 16 % 2 ^ 8 = c1.toNat := by unfold countOfBytes; omega
  have h2 : countOfBytes c0 c1 c2 c3 / 2 ^ 8 % 2 ^ 8 = c2.toNat := by unfold countOfBytes; omega
  have h3 : countOfBytes c0 c1 c2 c3 / 2 ^ 0 % 2 ^ 8 = c3.toNat := by unfold countOfBytes; omega
  rw [be32, hslice 24 h0, hslice 16 h1, hslice 8 h2, hslice 0 h3]

theorem readCount_ok {limit n : Nat} {items rest : List InItem} (h : readCount limit items = .ok n rest) :
    n ≤ limit ∧ items = itemsOf (be32 (BitVec.ofNat 32 n)) ++ rest := by
  obtain ⟨c0, r0, h0, h⟩ := andThen_eq_ok.mp h
  obtain ⟨c1, r1, h1, h⟩ := andThen_eq_ok.mp h
  obtain ⟨c2, r2, h2, h⟩ := andThen_eq_ok.mp h
  obtain ⟨c3, r3, h3, h⟩ := andThen_eq_ok.mp h
  dsimp only at h
  split at h
  next => cases h
  next hlimit =>
    cases h
    rw [nextByte_ok.mp h0, nextByte_ok.mp h1, nextByte_ok.mp h2, nextByte_ok.mp h3, be32_countOfBytes]
    exact ⟨Nat.not_lt.mp hlimit, rfl⟩

/-- `S` bytes are the packing of their `8 S` bits. -/
theorem takeBytes_ok_pack {S : Nat} {items rest : List InItem} {bytes : List Byte}
    (h : takeBytes S items = .ok bytes rest) :
    (unpack bytes).length = 8 * S ∧ items = itemsOf (pack (unpack bytes)) ++ rest := by
  obtain ⟨hlen, rfl⟩ := takeBytes_ok.mp h
  exact ⟨by rw [unpack_length, hlen], by rw [pack_unpack]; rfl⟩

theorem decodeSigns_ok {n : Nat} {items rest : List InItem} {signs : Bits} (h : decodeSigns n items = .ok signs rest) :
    ∃ sb : Bits, sb.length = 8 * ceilDiv8 n ∧ items = itemsOf (pack sb) ++ rest := by
  obtain ⟨bytes, r, hbytes, h⟩ := andThen_eq_ok.mp h
  cases h
  exact ⟨unpack bytes, takeBytes_ok_pack hbytes⟩

theorem takePlanes_ok {m S : Nat} {items rest : List InItem} {planes : List Bits}
    (h : takePlanes m S items = .ok planes rest) :
    planes.length = m ∧ (∀ p ∈ planes, p.length = 8 * S) ∧ items = itemsOf (planes.flatMap pack) ++ rest := by
  induction m generalizing items planes with
  | zero => cases h; exact ⟨rfl, nofun, rfl⟩
  | succ m ih =>
    obtain ⟨bytes, r, hbytes, h⟩ := andThen_eq_ok.mp h
    obtain ⟨ps, r', hps, h⟩ := andThen_eq_ok.mp h
    cases h
    obtain ⟨hlen, rfl⟩ := takeBytes_ok_pack hbytes
    obtain ⟨hcount, hplanes, rfl⟩ := ih hps
    refine ⟨by rw [List.length_cons, hcount], List.forall_mem_cons.mpr ⟨hlen, hplanes⟩, ?_⟩
    rw [List.flatMap_cons, itemsOf_append, List.append_assoc]

/-- The bits that the bit reader delivers, and those it leaves unread, are those of the bytes it has taken (R194). -/
theorem bitReader_of_delivers {r r' : BitReader} {bits : Bits} (h : Delivers BitReader.read1 r bits r') :
    ∃ bytes, r.items = itemsOf bytes ++ r'.items ∧ r.unread ++ unpack bytes = bits ++ r'.unread ∧
      (r.unread.length < 8 → r'.unread.length < 8) := by
  induction bits generalizing r with
  | nil => cases h; exact ⟨[], rfl, by simp, id⟩
  | cons b bits ih =>
    obtain ⟨r1, hread, hrest⟩ := h
    obtain ⟨bytes, hitems, hbits, hshort⟩ := ih hrest
    match r, hread with
    | ⟨_ :: _, _⟩, hread =>
      cases hread
      exact ⟨bytes, hitems, congrArg (b :: ·) hbits, fun hlt => hshort (Nat.lt_of_succ_lt hlt)⟩
    | ⟨[], .byte c :: _⟩, hread =>
      cases hread
      exact ⟨c :: bytes, congrArg (.byte c :: ·) hitems, congrArg (c.getLsbD 7 :: ·) hbits, fun _ => hshort (by simp)⟩

theorem expLoop_ok {sh : Shape} {n prev : Nat} {r r' : BitReader} {es : List Nat}
    (h : expLoop sh n prev r = .ok es r') :
    ∃ ds : List Int, ds.length = n ∧ (∀ d ∈ ds, InVlcRange d) ∧ Delivers BitReader.read1 r (codewords ds) r' := by
  induction n generalizing prev r es with
  | zero => cases h; exact ⟨[], rfl, nofun, rfl⟩
  | succ n ih =>
    obtain ⟨d, r1, hd, h⟩ := andThen_eq_ok.mp h
    obtain ⟨es', r2, hes, h⟩ := andThen_eq_ok.mp h
    cases h
    obtain ⟨c, hc, -, hdelivered⟩ := vlcDecode_delivers hd
    obtain ⟨ds, hlen, hrange, hrest⟩ := ih hes
    have hmag := (vlcEncode_ok hc.vlcEncode_eq).1
    refine ⟨d.1 :: ds, by rw [List.length_cons, hlen], List.forall_mem_cons.mpr ⟨by constructor <;> omega, hrange⟩, ?_⟩
    rw [codewords_cons, codeword_of_vlcEncode hc.vlcEncode_eq]
    exact hdelivered.append hrest

theorem decodeExps_ok {sh : Shape} {n : Nat} {items rest : List InItem} {es : List Nat}
    (h : decodeExps sh n items = .ok es rest) :
    ∃ (ds : List Int) (xpad : Bits), ds.length = n ∧ (∀ d ∈ ds, InVlcRange d) ∧
      (codewords ds ++ xpad).length = 8 * ceilDiv8 (codewords ds).length ∧
      items = itemsOf (pack (codewords ds ++ xpad)) ++ rest := by
  unfold decodeExps at h
  split at h
  next es' r hloop =>
    cases h
    obtain ⟨ds, hlen, hrange, hdelivered⟩ := expLoop_ok hloop
    obtain ⟨bytes, hitems, hbits, hshort⟩ := bitReader_of_delivers hdelivered
    have hpad : r.unread.length < 8 := hshort (Nat.succ_pos 7)
    have hbits' : unpack bytes = codewords ds ++ r.unread := hbits
    have htotal := congrArg List.length hbits'
    rw [unpack_length, List.length_append] at htotal
    refine ⟨ds, r.unread, hlen, hrange, ?_, ?_⟩
    · rw [List.length_append, ceilDiv8]
      omega
    · rw [← hbits', pack_unpack]
      exact hitems
  next => cases h

/-- What decodes is a container that fits, and exactly its bytes are taken (R196). -/
theorem decodeContainer_ok {cfg : Config} {items rest : List InItem} {vs : List (BitVec 64)}
    (h : decodeContainer cfg items = .ok vs rest) :
    ∃ L : Layout, L.Fits cfg.shape ∧ L.n ≤ cfg.maxSamples.toNat ∧ items = itemsOf L.bytes ++ rest ∧
      vs = L.samples cfg.shape := by
  obtain ⟨n, r0, hcount, hafterCount⟩ := andThen_eq_ok.mp h
  obtain ⟨signs, r1, hsigns, hafterSigns⟩ := andThen_eq_ok.mp hafterCount
  obtain ⟨es, r2, hexps, hafterExps⟩ := andThen_eq_ok.mp hafterSigns
  obtain ⟨planes, r3, hplanes, hresult⟩ := andThen_eq_ok.mp hafterExps
  obtain ⟨-, rfl⟩ := ReadResult.ok.inj hresult
  obtain ⟨hlimit, hitems⟩ := readCount_ok hcount
  obtain ⟨sb, hsb, rfl⟩ := decodeSigns_ok hsigns
  obtain ⟨ds, xpad, hds, hrange, hxpad, rfl⟩ := decodeExps_ok hexps
  obtain ⟨hm, hplane, rfl⟩ := takePlanes_ok hplanes
  have hfits : Layout.Fits cfg.shape ⟨n, sb, ds, xpad, planes⟩ := ⟨hsb, hds, hrange, hxpad, hm, hplane⟩
  have hbytes : items = itemsOf (Layout.bytes ⟨n, sb, ds, xpad, planes⟩) ++ r3 := by
    simp only [hitems, Layout.bytes, itemsOf_append, List.append_assoc]
  rw [hbytes, decodeContainer_eq_samples hfits hlimit] at h
  exact ⟨_, hfits, hlimit, hbytes, (ReadResult.ok.inj h).1.symm⟩

/-! ## What is taken -/

theorem pack_length_of_length {S : Nat} {s : Bits} (h : s.length = 8 * S) : (pack s).length = S := by
  rw [pack_length (by omega)]
  omega

theorem flatMap_pack_length {S : Nat} {planes : List Bits} (h : ∀ p ∈ planes, p.length = 8 * S) :
    (planes.flatMap pack).length = planes.length * S := by
  induction planes with
  | nil => simp
  | cons p planes ih =>
    obtain ⟨hp, hplanes⟩ := List.forall_mem_cons.mp h
    rw [List.flatMap_cons, List.length_append, pack_length_of_length hp, ih hplanes, List.length_cons, Nat.succ_mul,
      Nat.add_comm]

/-- The length of a container (20_memory.md R53, R55). -/
theorem Layout.Fits.bytes_length {sh : Shape} {L : Layout} (h : L.Fits sh) :
    L.bytes.length = 4 + ceilDiv8 L.n + ceilDiv8 (codewords L.ds).length + sh.mantBits * ceilDiv8 L.n := by
  rw [Layout.bytes, List.length_append, List.length_append, List.length_append, be32_length, pack_length_of_length h.sb,
    pack_length_of_length h.xpad, flatMap_pack_length h.plane, h.planes]

theorem nextByte_ne_countOverflow (items rest : List InItem) : nextByte items ≠ .raised .countOverflow rest := by
  intro h
  rcases nextByte_raised.mp h with ⟨-, h, -⟩ | ⟨-, h⟩ <;> cases h

theorem readCount_countOverflow {limit : Nat} {items rest : List InItem}
    (h : readCount limit items = .raised .countOverflow rest) : items.length = 4 + rest.length := by
  obtain ⟨c0, r0, h0, h⟩ := (andThen_eq_raised.mp h).resolve_left (nextByte_ne_countOverflow _ _)
  obtain ⟨c1, r1, h1, h⟩ := (andThen_eq_raised.mp h).resolve_left (nextByte_ne_countOverflow _ _)
  obtain ⟨c2, r2, h2, h⟩ := (andThen_eq_raised.mp h).resolve_left (nextByte_ne_countOverflow _ _)
  obtain ⟨c3, r3, h3, h⟩ := (andThen_eq_raised.mp h).resolve_left (nextByte_ne_countOverflow _ _)
  dsimp only at h
  split at h <;> cases h
  rw [nextByte_ok.mp h0, nextByte_ok.mp h1, nextByte_ok.mp h2, nextByte_ok.mp h3]
  simp only [List.length_cons]
  omega

/-- COUNT_OVERFLOW comes right after four bytes (R192). -/
theorem decodeContainer_countOverflow {cfg : Config} {items rest : List InItem}
    (h : decodeContainer cfg items = .raised .countOverflow rest) : items.length = 4 + rest.length := by
  rcases andThen_eq_raised.mp h with hcount | ⟨n, r, -, hafter⟩
  · exact readCount_countOverflow hcount
  · refine absurd rfl (RaisesOnly.of_raised (P := (· ≠ .countOverflow)) ?_ hafter)
    exact (decodeSigns_raisesOnly nofun nofun n r).andThen fun _ r =>
      (decodeExps_raisesOnly nofun nofun cfg.shape n r).andThen fun _ r =>
        (takePlanes_raisesOnly nofun nofun cfg.shape.mantBits (ceilDiv8 n) r).andThen fun _ _ => raisesOnly_ok _ _

theorem fail_not_mem_itemsOf (bs : List Byte) : .fail ∉ itemsOf bs := by
  simp [itemsOf]

theorem Status.code_eq_zero_iff {k : Status} : k.code = 0 ↔ k = .ok := by cases k <;> decide

theorem Status.code_eq_three_iff {k : Status} : k.code = 3 ↔ k = .ioFailure := by cases k <;> decide

theorem decodeContainer_raised_ne_ok {cfg : Config} {items rest : List InItem} {k : Status}
    (h : decodeContainer cfg items = .raised k rest) : k ≠ .ok :=
  (decodeContainer_raisesOnly (P := (· ≠ .ok)) nofun nofun (fun _ => nofun) items).of_raised h

/-- Settles O54: a success has read a container; an error has taken bytes, and before IO_FAILURE the failing item; and
the reading decides by what it takes alone, unless IN ended. -/
theorem deserializeTakesExactlyTheContainer : Obligations.DeserializeTakesExactlyTheContainer := by
  unfold Obligations.DeserializeTakesExactlyTheContainer
  intro s t h
  rcases execDeserialize_cases s with ⟨vs, items, hread, hx⟩ | ⟨k, items, hread, hx⟩ <;> cases hx.symm.trans h
  · obtain ⟨L, hfits, hlimit, hinput, rfl⟩ := decodeContainer_ok hread
    refine ⟨itemsOf L.bytes, hinput, fun _ => ⟨fail_not_mem_itemsOf _, L, hfits, hlimit, rfl, ?_, rfl, ?_⟩, nofun,
      nofun, nofun, fun _ rest => ?_⟩
    · exact congrArg (BitVec.ofNat 64) (L.samples_length _)
    · exact (List.length_map _).trans hfits.bytes_length
    · exact exec_deserialize_of_ok (s := { s with input := itemsOf L.bytes ++ rest })
        (decodeContainer_eq_samples hfits hlimit rest)
  · have hok : k.code ≠ 0 := fun h => decodeContainer_raised_ne_ok hread (Status.code_eq_zero_iff.mp h)
    rcases (decodeContainer_byteReader s.config).of_raised hread with
      ⟨bs, hinput, hio, hsame⟩ | ⟨bs, hinput, rfl, rfl⟩ | ⟨bs, hinput, rfl, hsame⟩
    · refine ⟨itemsOf bs, hinput, fun h => absurd h hok, fun _ => fail_not_mem_itemsOf bs,
        fun h => absurd (Status.code_eq_three_iff.mp h) hio, fun h => ⟨?_, fail_not_mem_itemsOf bs⟩, fun _ rest => ?_⟩
      · obtain rfl := Status.code_eq_five_iff.mp h
        have hlen := decodeContainer_countOverflow hread
        rw [hinput, List.length_append] at hlen
        exact Nat.add_right_cancel hlen
      · exact exec_deserialize_of_raised (s := { s with input := itemsOf bs ++ rest }) (hsame rest)
    · refine ⟨itemsOf bs, by simpa using hinput, fun h => absurd h hok, fun _ => fail_not_mem_itemsOf bs, nofun, nofun,
        fun h => ?_⟩
      rcases h with h | h
      · exact absurd rfl h
      · exact absurd rfl h
    · refine ⟨itemsOf bs ++ [.fail], by simpa using hinput, fun h => absurd h hok, nofun,
        fun _ => ⟨itemsOf bs, rfl, fail_not_mem_itemsOf bs⟩, nofun, fun _ rest => ?_⟩
      rw [List.append_assoc]
      exact exec_deserialize_of_raised (s := { s with input := itemsOf bs ++ .fail :: rest }) (hsame rest)

end Sys2Proof.Machine
end

section
/-! PROOFS. The invariant of the block (10_state.md R22 to R31): reset establishes it and every step keeps it; and what
a reset during a command leaves (70_reset_and_hazards.md R241). -/

namespace Sys2Proof.Machine

/-! ## The invariant -/

theorem Status.code_toNat_le (k : Status) : k.code.toNat ≤ 6 := by cases k <;> decide

/-- A response with the copies of phase and count completes the invariant of the chunk and the samples. -/
theorem inv_respond {s : State} {k : Status} {data : BitVec 64} {len : BitVec 5} (hconfig : s.config.wf = true)
    (hchunk : s.chunk.Wf s.config) (hsamples : AllOfWidth s.config.shape s.samplesOut) (hlen : len.toNat ≤ 16) :
    (respond k data len s).Inv where
  config := hconfig
  chunk := hchunk
  status := k.code_toNat_le
  len := hlen
  phase_copy := rfl
  count_copy := rfl
  samples := hsamples

/-- The samples of a container have W bits (log 12). -/
theorem Layout.samples_allOfWidth (sh : Shape) (L : Layout) : AllOfWidth sh (L.samples sh) := by
  intro v hv
  obtain ⟨k, -, rfl⟩ := List.mem_map.mp hv
  exact fromParts_lt _ _ _ _

theorem exec_keeps_inv {i : Instr} {s t : State} (h : exec i s = .next t) (hs : s.Inv) : t.Inv := by
  cases after_of_exec h with
  | answered hanswer => exact inv_respond hs.config hs.chunk hs.samples hanswer.len_le
  | renewed => exact inv_respond hs.config (.of_fresh s.config) hs.samples (by decide)
  | pushed a hphase hcount hcode =>
    have hlen := (vlcEncode_eq_ok_iff.mp hcode).length_le
    exact inv_respond hs.config (hs.chunk.push hphase hcount hcode) hs.samples (toNat_ofNat_length_le hlen)
  | aligned hphase => exact inv_respond hs.config (hs.chunk.align hphase) hs.samples (by decide)
  | sent used hphase =>
    exact inv_respond hs.config (hs.chunk.inPhase (by simp [hphase]) (by decide)) hs.samples (by decide)
  | cut front used hphase =>
    exact inv_respond hs.config (hs.chunk.inPhase (by simp [hphase]) (by decide)) hs.samples (by decide)
  | delivered hread =>
    obtain ⟨L, -, -, -, rfl⟩ := decodeContainer_ok hread
    exact inv_respond hs.config hs.chunk (L.samples_allOfWidth _) (by decide)
  | refused => exact inv_respond hs.config hs.chunk hs.samples (by decide)

/-- The invariant does not speak of the command registers, IN, OUT and the host. -/
theorem State.Inv.congr {s t : State} (hs : s.Inv) (hconfig : t.config = s.config) (hchunk : t.chunk = s.chunk)
    (hrsp : t.rsp = s.rsp) (hsamples : t.samplesOut = s.samplesOut) : t.Inv := by
  obtain ⟨config, chunk, status, len, phase, count, samples⟩ := hs
  exact ⟨by rwa [hconfig], by rwa [hchunk, hconfig], by rwa [hrsp], by rwa [hrsp], by rw [hrsp, hchunk, phase],
    by rw [hrsp, hchunk, count], by rwa [hsamples, hconfig]⟩

theorem issueCommand_keeps_inv {s t : State} (h : issueCommand s = .next t) (hs : s.Inv) : t.Inv := by
  have hbegin : (beginCommand s).Inv := hs.congr rfl rfl rfl rfl
  cases hdecode : decodeCommand (fetch s) with
  | ok i =>
    rw [issueCommand_of_decode hdecode] at h
    exact exec_keeps_inv h hbegin
  | error e =>
    rw [issueCommand_of_illegal hdecode] at h
    cases h
    exact inv_respond hbegin.config hbegin.chunk hbegin.samples (by decide)

/-- A block with the reset values of a legal instance meets the invariant (10_state.md R37). -/
theorem inv_of_fresh {t : State} (hconfig : t.config.wf = true) (hchunk : t.chunk = Chunk.fresh t.config.shape)
    (hrsp : t.rsp = Response.cleared) (hsamples : t.samplesOut = []) : t.Inv where
  config := hconfig
  chunk := hchunk ▸ .of_fresh t.config
  status := by rw [hrsp]; decide
  len := by rw [hrsp]; decide
  phase_copy := by rw [hrsp, hchunk]; rfl
  count_copy := by rw [hrsp, hchunk]; rfl
  samples := by rw [hsamples]; exact nofun

/-- Settles O12: the reset state is a fresh block. -/
theorem resetMeetsInvariant : Obligations.ResetMeetsInvariant := by
  unfold Obligations.ResetMeetsInvariant
  exact fun cfg hcfg => inv_of_fresh hcfg rfl rfl rfl

theorem resetEvent_inv {s : State} (h : s.config.wf = true) : (resetEvent s).Inv := inv_of_fresh h rfl rfl rfl

theorem act_keeps_inv {a : HostAction} {s t : State} (h : act a s = .next t) (hs : s.Inv) : t.Inv := by
  cases a with
  | writeCmd v => cases h; exact hs.congr rfl rfl rfl rfl
  | writeArgA v => cases h; exact hs.congr rfl rfl rfl rfl
  | writeArgB v => cases h; exact hs.congr rfl rfl rfl rfl
  | offer items => cases h; exact hs.congr rfl rfl rfl rfl
  | issue => exact issueCommand_keeps_inv h hs
  | reset => cases h; exact resetEvent_inv hs.config
  | issueThenReset moved =>
    obtain ⟨u, hu⟩ := issueCommand_next s
    cases (issueThenReset_of_next moved hu).symm.trans h
    exact resetEvent_inv (s := abandon moved s u) hs.config

/-- Settles O13: a step is an action of the host, and each keeps the invariant. -/
theorem stepKeepsInvariant : Obligations.StepKeepsInvariant := by
  unfold Obligations.StepKeepsInvariant
  intro s t hs h
  cases hactions : s.actions with
  | nil =>
    cases (step_idle hactions).symm.trans h
    exact hs
  | cons a rest =>
    rw [step_act hactions] at h
    exact act_keeps_inv h (hs.congr rfl rfl rfl rfl)

/-! ## A reset during a command -/

/-- The items that DESERIALIZE leaves are those behind the ones it takes (43_chunk_decoder.md R196). -/
theorem exec_deserialize_suffix {s t : State} (h : exec .deserialize s = .next t) : t.input <:+ s.input := by
  obtain ⟨taken, htaken, -⟩ := deserializeTakesExactlyTheContainer s t h
  exact ⟨taken, htaken.symm⟩

theorem exec_input_suffix {i : Instr} {s t : State} (h : exec i s = .next t) : t.input <:+ s.input := by
  cases after_of_exec h with
  | delivered | refused => exact exec_deserialize_suffix h
  | _ => exact List.suffix_rfl

theorem exec_sinkAnswers_suffix {i : Instr} {s t : State} (h : exec i s = .next t) :
    t.sinkAnswers <:+ s.sinkAnswers := by
  cases after_of_exec h with
  | sent used | cut _ used => exact List.drop_suffix used _
  | _ => exact List.suffix_rfl

/-- Each byte handed over uses one answer, and the failing answer is one more (20_memory.md R58). -/
theorem sendBytes_answers_used (bs : List Byte) (j : Nat) (s : State) {good : Bool} {j' : Nat} {t : State}
    (h : sendBytes bs j s = (good, j', t)) :
    s.sinkAnswers.length + s.out.length ≤ t.sinkAnswers.length + t.out.length + 1 := by
  induction bs generalizing j s with
  | nil =>
    obtain ⟨-, -, rfl⟩ := h
    omega
  | cons b bs ih =>
    rcases outByte_cases b s with ⟨rest, hanswers, hb⟩ | ⟨rest, hanswers, hb⟩
    · simp only [sendBytes, hb] at h
      have hrest := ih _ _ h
      rcases hanswers with hanswers | ⟨hanswers, rfl⟩ <;> simp [hanswers] at hrest ⊢ <;> omega
    · simp only [sendBytes, hb, Prod.mk.injEq] at h
      obtain ⟨-, -, rfl⟩ := h
      simp [hanswers]
      omega

theorem exec_serialize_answers_used {s t : State} (h : exec .serialize s = .next t) :
    s.sinkAnswers.length + s.out.length ≤ t.sinkAnswers.length + t.out.length + 1 := by
  by_cases hphase : s.chunk.phase = .finalized
  · rcases hsend : sendBytes s.chunk.bytes 0 s with ⟨good, j, u⟩
    have hused := sendBytes_answers_used _ _ _ hsend
    cases good <;> simp only [exec, execSerialize, hphase, hsend, ne_eq, not_true, if_false] at h <;> cases h <;>
      exact hused
  · cases (exec_serialize_out_of_phase hphase).symm.trans h
    exact Nat.le_succ _

theorem exec_answers_used {i : Instr} {s t : State} (h : exec i s = .next t) :
    s.sinkAnswers.length + s.out.length ≤ t.sinkAnswers.length + t.out.length + 1 := by
  cases after_of_exec h with
  | sent | cut => exact exec_serialize_answers_used h
  | _ => exact Nat.le_succ _

/-- What a command has taken from IN and from the sink's answers when it ends; at its start OUT is empty (log 6). -/
theorem issueCommand_moves {s u : State} (h : issueCommand s = .next u) :
    u.input <:+ s.input ∧ u.sinkAnswers <:+ s.sinkAnswers ∧
      s.sinkAnswers.length ≤ u.sinkAnswers.length + u.out.length + 1 := by
  cases hdecode : decodeCommand (fetch s) with
  | ok i =>
    rw [issueCommand_of_decode hdecode] at h
    exact ⟨exec_input_suffix (s := beginCommand s) h, exec_sinkAnswers_suffix (s := beginCommand s) h,
      exec_answers_used (s := beginCommand s) h⟩
  | error e =>
    cases (issueCommand_of_illegal hdecode).symm.trans h
    exact ⟨List.suffix_rfl, List.suffix_rfl, Nat.le_succ _⟩

/-- Dropping as many elements as lie before a suffix, where a bound does not cut that short. -/
theorem drop_min_eq_of_suffix {α : Type} {l l' : List α} {k : Nat} (h : l' <:+ l) (hk : l.length - l'.length ≤ k) :
    l.drop (min k (l.length - l'.length)) = l' := by
  rw [Nat.min_eq_right hk]
  exact (List.suffix_iff_eq_drop.mp h).symm

/-- Settles O11: the reset leaves a fresh block, with what `abandon` keeps of the command's own outcome; a command that
moves no more than `k` items leaves what it would have left without the reset. -/
theorem resetDuringCommandKeepsMovedItems : Obligations.ResetDuringCommandKeepsMovedItems := by
  unfold Obligations.ResetDuringCommandKeepsMovedItems
  intro s rest k hactions
  obtain ⟨u, hu⟩ := issueCommand_next { s with actions := rest }
  obtain ⟨hinput, hanswers, hused⟩ := issueCommand_moves hu
  have hstep : step s = .next (resetEvent (abandon k { s with actions := rest } u)) :=
    (step_act hactions).trans (issueThenReset_of_next k hu)
  refine ⟨_, u, hstep, hu, resetEvent_hasResetValues _, rfl, rfl, fun hk => ?_, rfl, rfl, fun hk => ?_⟩
  · exact drop_min_eq_of_suffix hinput hk
  · exact drop_min_eq_of_suffix hanswers (by omega)

end Sys2Proof.Machine
end
